-- ==== Sys2Proof/Word.lean ====
section
/-! DEFINITION. The word types of the core (00_scope.md R9, R10; 10_state.md R26, R29). -/

namespace Sys2Proof

/-- A byte, 0..255 (R10). -/
abbrev Byte := BitVec 8

/-- A 16-bit header field (R26: DEST, SRC, CMD). -/
abbrev Half := BitVec 16

/-- A 32-bit operand or error argument (R9 OPER_WIDTH, R29). -/
abbrev Word := BitVec 32

/-- A 64-bit result, or the bit pattern of a binary64 value (R9 RAW_WIDTH, R80 F). -/
abbrev DWord := BitVec 64

end Sys2Proof
end

