-- ==== Sys2Proof/Config.lean ====
section
/-! DEFINITION. The parameters of 00_scope.md R9, and the values the spec leaves free. -/

namespace Sys2Proof.Config

/-- `SYNC`, the sync byte (R9). -/
def sync : Byte := 0xAA#8

/-- `PROTO_SUPPORTED`, the closed set of protocols (R2, R9, R124). -/
def protoSupported : List Byte := [0x10#8]

/-- `HDR_LEN` (R9). -/
def hdrLen : Nat := 10

/-- `FRAME_LEN`: 4 data bytes, the septet byte, the checksum (R9). -/
def frameLen : Nat := 6

/-- `FRAME_DATA`, the data bytes of a frame (R9). -/
def frameData : Nat := 4

/-- `CK_INIT`, the checksum's start value (R9, R100). -/
def ckInit : Int := 0x7F

/-- `CK_MOD`, the checksum's modulus (R9, R100). -/
def ckMod : Int := 128

/-- How far the input buffer's capacity exceeds the least the spec allows. R9 and D4 leave
`BUF_CAP` open: a free constant with no body (assumption log 5, DESIGN CHOICE of form; safe). -/
opaque bufCapExtra : Nat

/-- `BUF_CAP`, "at least 1540" (R9, D4). -/
def bufCap : Nat := bufCapExtra + 1540

/-- Bound of LEN's 32-bit width: a LOAD of this many bytes or more is refused (R55). -/
def lenBound : Nat := 2 ^ 32

/-- The bit pattern IEEE 754 leaves open for a NaN result. No command produces a NaN (R232), so no
run reads it: a free constant with no body (assumption log 11, PRESUMED; safe). -/
opaque nanResult : DWord

/-- `DEFAULT_FACTOR`, 0.1 as binary64 (R9, R88). -/
def defaultFactor : DWord := 0x3FB999999999999A#64

end Sys2Proof.Config
end

