-- ==== Sys2Proof/Syntax.lean ====
section
/-! DEFINITION. The host's transactions as presented (30_encoding.md R80; 10_state.md R20) and the
instructions they stand for, one constructor per row of spec/opcode_table.json. -/

namespace Sys2Proof

/-- The four fields of a command, "presented together" (R80). -/
structure CommandFields where
  /-- Command word: OP in CW[3:0], CW[31:4] reserved. -/
  cw : Word
  /-- First operand. -/
  a : Word
  /-- Second operand. -/
  b : Word
  /-- Binary64 operand. -/
  f : DWord
deriving DecidableEq, Repr

/-- One host transaction as the core receives it (R20): a command, or one of the three
transactions that have no command word. -/
inductive Transaction where
  /-- A command of four fields (R80). -/
  | command (fields : CommandFields)
  /-- LOAD of one whole buffer (R55). -/
  | load (bytes : List Byte)
  /-- A register read by number (R31); the spec gives the number no width (assumption log 15). -/
  | read (number : Nat)
  /-- RESET (R290). -/
  | reset
deriving DecidableEq, Repr

/-- The instructions: the 13 commands, the three reserved commands and the three host transactions
of spec/opcode_table.json, with the operands R83 says each reads. -/
inductive Instr where
  /-- DECODE (R207). -/
  | decode
  /-- GET_RAW (R225). -/
  | getRaw (offset size : Word)
  /-- GET_TEMPERATURE (R230). -/
  | getTemperature (offset size : Word) (factor : DWord)
  /-- GET_TIME (R235). -/
  | getTime (offset size : Word)
  /-- CHECKSUM7 (R105). -/
  | checksum7 (offset length : Word)
  /-- SEPTET_RESTORE (R175): `data` is A, `septet` is B[7:0]. -/
  | septetRestore (data : Word) (septet : Byte)
  /-- SEPTET_ENCODE (R176): `data` is A. -/
  | septetEncode (data : Word)
  /-- GET_DEST (R130). -/
  | getDest
  /-- GET_SRC (R131). -/
  | getSrc
  /-- GET_PROTO (R132). -/
  | getProto
  /-- GET_CMD (R133). -/
  | getCmd
  /-- GET_FCNT (R134). -/
  | getFcnt
  /-- GET_HCHK (R135). -/
  | getHchk
  /-- The reserved OP 0x0 (R85). -/
  | reservedOp0
  /-- The reserved OP 0xE (R85). -/
  | reservedOpE
  /-- The reserved OP 0xF (R85). -/
  | reservedOpF
  /-- LOAD (R55). -/
  | load (bytes : List Byte)
  /-- READ (R31). -/
  | read (number : Nat)
  /-- RESET (R290). -/
  | reset
deriving DecidableEq, Repr

/-- The rows with a command word: everything but LOAD, READ and RESET (R82, R85). -/
def Instr.isCommand : Instr → Bool
  | .decode | .getRaw _ _ | .getTemperature _ _ _ | .getTime _ _ | .checksum7 _ _ => true
  | .septetRestore _ _ | .septetEncode _ => true
  | .getDest | .getSrc | .getProto | .getCmd | .getFcnt | .getHchk => true
  | .reservedOp0 | .reservedOpE | .reservedOpF => true
  | .load _ | .read _ | .reset => false

end Sys2Proof
end

