-- ==== Sys2Proof/Decode.lean ====
section
/-! DEFINITION. Decoding of a host transaction, and the encoder (30_encoding.md R80 to R85). -/

namespace Sys2Proof

/-- Why a command word is not an instruction. -/
inductive DecodeError where
  /-- `CW[31:4] != 0` (R81). Safe: the step gives the refusal the spec states. -/
  | reservedBitsSet
deriving DecidableEq, Repr

/-- One row of the opcode map: the whole command word and the instruction its fields give. -/
abbrev OpcodeRow := Word × (CommandFields → Instr)

/-- The opcode map (R82), the reserved OPs with it (R85), with the operands of R83. An operand a
row does not read is ignored (R84). -/
def opcodeMap : List OpcodeRow :=
  [ (0x00000000#32, fun _ => .reservedOp0),
    (0x00000001#32, fun _ => .decode),
    (0x00000002#32, fun c => .getRaw c.a c.b),
    (0x00000003#32, fun c => .getTemperature c.a c.b c.f),
    (0x00000004#32, fun c => .getTime c.a c.b),
    (0x00000005#32, fun c => .checksum7 c.a c.b),
    (0x00000006#32, fun c => .septetRestore c.a (c.b.extractLsb' 0 8)),
    (0x00000007#32, fun c => .septetEncode c.a),
    (0x00000008#32, fun _ => .getDest),
    (0x00000009#32, fun _ => .getSrc),
    (0x0000000A#32, fun _ => .getProto),
    (0x0000000B#32, fun _ => .getCmd),
    (0x0000000C#32, fun _ => .getFcnt),
    (0x0000000D#32, fun _ => .getHchk),
    (0x0000000E#32, fun _ => .reservedOpE),
    (0x0000000F#32, fun _ => .reservedOpF) ]

/-- A command's instruction; "Decoding looks at CW only" (R80). Every CW that matches no row has
`CW[31:4] != 0` (R81 and the table's note on its reserved rows). -/
def decodeCommand (c : CommandFields) : Except DecodeError Instr :=
  match opcodeMap.find? (fun row => row.1 == c.cw) with
  | some row => .ok (row.2 c)
  | none => .error .reservedBitsSet

/-- A transaction's instruction: total, rejecting by name. -/
def decode : Transaction → Except DecodeError Instr
  | .command c => decodeCommand c
  | .load bytes => .ok (.load bytes)
  | .read number => .ok (.read number)
  | .reset => .ok .reset

/-- A command with the given command word and operands, the others zero. -/
def commandOf (cw : Word) (a b : Word := 0) (f : DWord := 0) : Transaction :=
  .command ⟨cw, a, b, f⟩

/-- The transaction of an instruction, written from R82 and R83. Ignored operands are 0. -/
def encode : Instr → Transaction
  | .reservedOp0 => commandOf 0x0#32
  | .decode => commandOf 0x1#32
  | .getRaw offset size => commandOf 0x2#32 offset size
  | .getTemperature offset size factor => commandOf 0x3#32 offset size factor
  | .getTime offset size => commandOf 0x4#32 offset size
  | .checksum7 offset length => commandOf 0x5#32 offset length
  | .septetRestore data septet => commandOf 0x6#32 data (septet.setWidth 32)
  | .septetEncode data => commandOf 0x7#32 data
  | .getDest => commandOf 0x8#32
  | .getSrc => commandOf 0x9#32
  | .getProto => commandOf 0xA#32
  | .getCmd => commandOf 0xB#32
  | .getFcnt => commandOf 0xC#32
  | .getHchk => commandOf 0xD#32
  | .reservedOpE => commandOf 0xE#32
  | .reservedOpF => commandOf 0xF#32
  | .load bytes => .load bytes
  | .read number => .read number
  | .reset => .reset

/-- The command's bits as one number: CW in bits 31..0, A in 63..32, B in 95..64, F in 159..96.
R80 gives the fields and their widths, no serial layout: the order is assumption log 17's. -/
def CommandFields.toNat (c : CommandFields) : Nat :=
  c.cw.toNat + 2 ^ 32 * c.a.toNat + 2 ^ 64 * c.b.toNat + 2 ^ 96 * c.f.toNat

/-- The command whose bits are `w`, laid out as in `CommandFields.toNat`. -/
def CommandFields.ofNat (w : Nat) : CommandFields :=
  ⟨BitVec.ofNat 32 w, BitVec.ofNat 32 (w / 2 ^ 32), BitVec.ofNat 32 (w / 2 ^ 64),
    BitVec.ofNat 64 (w / 2 ^ 96)⟩

/-- The command's bits of an instruction that has a command word (R80, R82). -/
def encodeWord (i : Instr) : Option Nat :=
  match encode i with
  | .command c => some c.toNat
  | .load _ => none
  | .read _ => none
  | .reset => none

/-- The command of `nbits` bits `w`, every bit above them 0. -/
def commandOfWord (nbits w : Nat) : CommandFields := CommandFields.ofNat (w % 2 ^ nbits)

/-- The instruction the decoder reads from the `nbits` bits `w` of a command. -/
def decodeTableWord (nbits w : Nat) : Option Instr :=
  match decodeCommand (commandOfWord nbits w) with
  | .ok i => some i
  | .error _ => none

end Sys2Proof
end

