-- ==== Sys2Proof/Machine/State.lean ====
section
/-! DEFINITION. The state of the core (10_state.md R20 to R34), its stops, and the state after
reset (70_reset_and_hazards.md R290, R291). -/

namespace Sys2Proof.Machine

/-- A byte-addressed buffer (20_memory.md R50): (offset, byte) pairs, offsets strictly rising. An
offset that is not listed is a byte that "does not exist" (R22). -/
abbrev Memory := List Host.Cell

/-- The canonical form: offsets strictly rising. An unlisted offset has no byte, so no listed byte
can equal it: equal buffers are equal lists. -/
abbrev Memory.wf (m : Memory) : Prop := m.Pairwise (fun c d => c.1 < d.1)

/-- The error taxonomy (60_exceptions.md R260, codes 0x1 to 0x8), with the arguments of R263. -/
inductive VBusError where
  /-- 0x1: LEN = 0 or the first byte is not 0xAA (R121). -/
  | syncByteMismatch
  /-- 0x2: the buffer is too short for a header (R122, R125). -/
  | headerTooShort (got : Nat)
  /-- 0x3: the protocol byte is not supported (R124). -/
  | unsupportedProtocol (id : Byte)
  /-- 0x4: the header checksum differs (R126). -/
  | headerChecksumMismatch (expected : Nat) (got : Byte)
  /-- 0x5: the length is not the header's (R127). -/
  | lengthMismatch (expected got : Nat)
  /-- 0x6: a byte after the sync byte has bit 7 set (R150). -/
  | highBitSetError (index : Nat) (value : Byte)
  /-- 0x7: a frame checksum differs (R201). -/
  | frameChecksumMismatch (frameIndex expected : Nat) (got : Byte)
  /-- 0x8: a field read leaves the payload (R221). -/
  | offsetOutOfRange (offset size : Word) (payloadLength : Nat)
deriving DecidableEq, Repr

/-- The packet of the last successful DECODE: the header registers (R26) and PAY (R27). -/
structure Packet where
  /-- `DEST` -/
  dest : Half
  /-- `SRC` -/
  src : Half
  /-- `PROTO` -/
  proto : Byte
  /-- `CMD` -/
  cmd : Half
  /-- `FCNT` -/
  fcnt : Byte
  /-- `HCHK` -/
  hchk : Byte
  /-- `PAY` -/
  pay : Memory
deriving DecidableEq, Repr

/-- The response registers (R29). `none` is the spec's own "holds no value" (R29, R31, K9). -/
structure Response where
  /-- `ST`, the status code of R260. -/
  st : Option (BitVec 4)
  /-- `E0` -/
  e0 : Option Word
  /-- `E1` -/
  e1 : Option Word
  /-- `E2` -/
  e2 : Option Word
  /-- `R0` -/
  r0 : Option DWord
  /-- `R1` -/
  r1 : Option DWord
  /-- `TS` -/
  ts : Option (List Byte)
deriving DecidableEq, Repr

/-- Response registers that all hold no value: what reset leaves (R29). -/
def Response.empty : Response := ⟨none, none, none, none, none, none, none⟩

/-- The machine's state. The first six fields are the core's (R34, "the full state"); the last two
are the model's own view of the host (assumption log 1 and 3). -/
structure State where
  /-- `IBUF` (R22). -/
  ibuf : Memory
  /-- `LEN` (R22). -/
  len : Word
  /-- PKT_VALID, the header registers and PAY, as the optional packet of R28. -/
  packet : Option Packet
  /-- `REFUSED` (R24). -/
  refused : Bool
  /-- `BUSY` (R25). -/
  busy : Bool
  /-- The response registers (R29). -/
  resp : Response
  /-- The host's transactions not yet taken, first one first (R20, R60). -/
  pending : List Transaction
  /-- What the last READ returned to the host (R31). -/
  readPort : Option Word
deriving DecidableEq, Repr

/-- Why the model stops. Both are an access to a byte the spec says does not exist (R22, R27); the
range checks of every command and the invariants of every run exclude them (assumption log 9). -/
inductive Fault where
  /-- Raised by DECODE and CHECKSUM7 when a byte below LEN is not in IBUF. Safe: the model stops. -/
  | absentInputByte
  /-- Raised by GET_RAW, GET_TEMPERATURE and GET_TIME when a byte below PLEN is not in PAY.
  Safe: the model stops. -/
  | absentPayloadByte
deriving DecidableEq, Repr

/-- Why the model gives an instruction no meaning. The spec's own refusal (R262) is NOT this: it is
a next state with REFUSED set. -/
inductive Refusal where
  /-- Raised by an arm of `exec` that is not modelled yet; no arm is left so. Safe. -/
  | notModelled (mnemonic : String)
deriving DecidableEq, Repr

/-- After RESET and power-on (R34, R290, R291). -/
def State.reset : State where
  ibuf := []
  len := 0#32
  packet := none
  refused := false
  busy := false
  resp := Response.empty
  pending := []
  readPort := none

end Sys2Proof.Machine
end

