-- ==== Sys2Proof/Machine/Ops.lean ====
section
/-! DEFINITION. The shared operations: buffer access (20_memory.md), the response registers
(10_state.md R29), raising an error and refusing (60_exceptions.md R260 to R262), the handshake
(70_reset_and_hazards.md R296) and the host's queue of transactions (10_state.md R20). -/

namespace Sys2Proof.Machine

/-! ### Byte buffers -/

/-- One byte of a buffer; `none` where no byte exists (R22). -/
def Memory.read : Memory → Nat → Option Byte
  | [], _ => none
  | c :: m, a => if c.1 = a then some c.2 else Memory.read m a

/-- Writes one byte, keeping the canonical form. -/
def Memory.write : Memory → Nat → Byte → Memory
  | [], a, b => [(a, b)]
  | c :: m, a, b =>
    if a < c.1 then (a, b) :: c :: m
    else if a = c.1 then (a, b) :: m
    else c :: Memory.write m a b

/-- `MemRead(buffer, a, n)` (R12); `none` when one of the bytes does not exist. -/
def Memory.readRange (m : Memory) : Nat → Nat → Option (List Byte)
  | _, 0 => some []
  | a, n + 1 =>
    match Memory.read m a, Memory.readRange m (a + 1) n with
    | some b, some bs => some (b :: bs)
    | _, _ => none

/-- `MemWrite(buffer, a, n, v)` with `n` the length of `v` (R12). -/
def Memory.writeRange : Memory → Nat → List Byte → Memory
  | m, _, [] => m
  | m, a, b :: bs => Memory.writeRange (Memory.write m a b) (a + 1) bs

/-- A buffer holding exactly the given bytes from offset 0 (R55). -/
def Memory.ofBytes (bytes : List Byte) : Memory := Memory.writeRange [] 0 bytes

/-! ### State updates -/

/-- Replaces all response registers (R29). -/
def State.respond (s : State) (r : Response) : State := { s with resp := r }

/-- `REFUSED <- 1` (R24, R262). -/
def State.markRefused (s : State) : State := { s with refused := true }

/-- Holds a packet, or none (R28, R206). -/
def State.withPacket (s : State) (p : Option Packet) : State := { s with packet := p }

/-- `IBUF <- m ; LEN <- n` (R55). -/
def State.withInput (s : State) (m : Memory) (n : Word) : State := { s with ibuf := m, len := n }

/-- What a READ returns to the host (R31). -/
def State.withReadPort (s : State) (v : Option Word) : State := { s with readPort := v }

/-- The host's remaining transactions. -/
def State.withPending (s : State) (ts : List Transaction) : State := { s with pending := ts }

/-! ### Responses -/

/-- Status OK with the results a command writes; every other response register holds no value
(R29, R86). -/
def Response.ok (r0 : DWord) (r1 : Option DWord := none) (ts : Option (List Byte) := none) :
    Response :=
  ⟨some 0x0#4, none, none, none, some r0, r1, ts⟩

/-- A status code with its error arguments; the results hold no value (R29). -/
def Response.status (code : BitVec 4) (e0 e1 e2 : Option Word := none) : Response :=
  ⟨some code, e0, e1, e2, none, none, none⟩

/-- `raise <Error>(args)`: the code and arguments of R260, zero-extended to 32 bits. -/
def Response.ofError : VBusError → Response
  | .syncByteMismatch => .status 0x1#4
  | .headerTooShort got => .status 0x2#4 (some (BitVec.ofNat 32 got))
  | .unsupportedProtocol id => .status 0x3#4 (some (id.setWidth 32))
  | .headerChecksumMismatch expected got =>
    .status 0x4#4 (some (BitVec.ofNat 32 expected)) (some (got.setWidth 32))
  | .lengthMismatch expected got =>
    .status 0x5#4 (some (BitVec.ofNat 32 expected)) (some (BitVec.ofNat 32 got))
  | .highBitSetError index value =>
    .status 0x6#4 (some (BitVec.ofNat 32 index)) (some (value.setWidth 32))
  | .frameChecksumMismatch frameIndex expected got =>
    .status 0x7#4 (some (BitVec.ofNat 32 frameIndex)) (some (BitVec.ofNat 32 expected))
      (some (got.setWidth 32))
  | .offsetOutOfRange offset size payloadLength =>
    .status 0x8#4 (some offset) (some size) (some (BitVec.ofNat 32 payloadLength))

/-- The response of a refused command: ST = 0xF, nothing else holds a value (R262). -/
def Response.refused : Response := .status 0xF#4

/-! ### Ends of a transaction -/

/-- What one transaction answers. -/
abbrev StepResult := Host.Outcome State Fault Refusal

/-- `return`: status OK (R13). -/
def returnOk (s : State) (r0 : DWord) (r1 : Option DWord := none) (ts : Option (List Byte) := none) :
    StepResult :=
  .next (s.respond (.ok r0 r1 ts))

/-- `raise` (R13, R261): precise and synchronous, no trap (R266). -/
def raiseError (s : State) (e : VBusError) : StepResult := .next (s.respond (.ofError e))

/-- A refused command, causes 1 to 6 of R262: REFUSED is set, ST is 0xF, and every other response
register holds no value. -/
def refuseCommand (s : State) : StepResult := .next (s.markRefused.respond .refused)

/-- A transaction refused without a response, causes 7 to 9 of R262: only REFUSED changes. -/
def refuseTransaction (s : State) : StepResult := .next s.markRefused

/-- Acceptance of a command (R296): while BUSY = 1 it is refused before anything of it is looked at
and writes no response register (R262 cause 9; assumption log 6). -/
def acceptCommand (s : State) (run : State → StepResult) : StepResult :=
  if s.busy then refuseTransaction s else run s

/-- A command word that is no instruction (R81, R262 cause 1). -/
def undecodable (_ : DecodeError) (s : State) : StepResult := acceptCommand s refuseCommand

/-! ### The host's queue -/

/-- The host's next transaction and the state without it (R20, R60). -/
def fetch (s : State) : Option (Transaction × State) :=
  match s.pending with
  | [] => none
  | t :: rest => some (t, s.withPending rest)

/-- With no transaction the core "simply holds its state" (R272; assumption log 2). -/
def idle (s : State) : StepResult := .next s

/-- The host presents a transaction as the next one (assumption log 1). -/
def present (s : State) (t : Transaction) : State := s.withPending (t :: s.pending)

/-- The next state of an answer, if it is one. -/
def nextState : StepResult → Option State
  | .next s => some s
  | .fault _ => none
  | .refused _ => none

end Sys2Proof.Machine
end

