-- ==== Sys2Proof/Machine/Flags.lean ====
section
/-! DEFINITION. The flags and the read-only views of the state (10_state.md R23 to R31). -/

namespace Sys2Proof.Machine

/-- `PKT_VALID` (R23, R28): a packet is held. -/
def State.pktValid (s : State) : Bool := s.packet.isSome

/-- `PLEN = 4 × FCNT` (R27). -/
def Packet.plen (p : Packet) : Nat := Config.frameData * p.fcnt.toNat

/-- `FLAGS` (R30): bit 0 PKT_VALID, bit 1 REFUSED, bit 2 BUSY, bits 31..3 zero. -/
def State.flags (s : State) : Word :=
  0#29 ++ BitVec.ofBool s.busy ++ BitVec.ofBool s.refused ++ BitVec.ofBool s.pktValid

/-- The low word of a 64-bit result (R31). -/
def lowWord (v : DWord) : Word := v.extractLsb' 0 32

/-- The high word of a 64-bit result (R31). -/
def highWord (v : DWord) : Word := v.extractLsb' 32 32

/-- TS byte `j`, zero-extended; none at and past its length (R31). -/
def State.tsByte (s : State) (j : Nat) : Option Word :=
  match s.resp.ts with
  | some text => (text[j]?).map (fun b => b.setWidth 32)
  | none => none

/-- The register read map (R31): the value of a register, `none` for a reserved number and for a
register that holds no value. -/
def State.registerValue (s : State) : Nat → Option Word
  | 0x0 => s.resp.st.map (fun v => v.setWidth 32)
  | 0x1 => s.resp.e0
  | 0x2 => s.resp.e1
  | 0x3 => s.resp.e2
  | 0x4 => s.resp.r0.map lowWord
  | 0x5 => s.resp.r0.map highWord
  | 0x6 => s.resp.r1.map lowWord
  | 0x7 => s.resp.r1.map highWord
  | 0x8 => some s.len
  | 0x9 => some s.flags
  | 0xA => s.resp.ts.map (fun text => BitVec.ofNat 32 text.length)
  | n => if 0x10 ≤ n ∧ n ≤ 0x24 then s.tsByte (n - 0x10) else none

/-- While BUSY = 1 the host may read LEN and FLAGS and nothing else (R296; 92_eei_decisions.md D19;
assumption log 7). -/
def State.readAllowed (s : State) (n : Nat) : Bool := !s.busy || n == 0x8 || n == 0x9

end Sys2Proof.Machine
end

