-- ==== Sys2Proof/Machine/Float64.lean ====
section
/-! DEFINITION. IEEE 754 binary64 arithmetic, round to nearest, ties to even (00_scope.md R14;
45_field_extractor.md R227 to R232; 93_implementation_defined.md G1, G4, G6). A finite value is a
sign and a whole number of units of 2^-1074, the smallest subnormal: every finite binary64 is one,
so the operations are exact on Nat and round once at the end. -/

namespace Sys2Proof.Machine

/-- What a binary64 bit pattern stands for. -/
inductive Binary64 where
  /-- `(-1)^neg * units * 2^-1074` -/
  | finite (neg : Bool) (units : Nat)
  /-- `(-1)^neg * infinity` -/
  | infinite (neg : Bool)
  /-- not a number -/
  | nan
deriving DecidableEq, Repr

/-- `1.0` in units: `2^1074`. -/
def unitsPerOne : Nat := 2 ^ 1074

/-- The bits below the sign of an infinity: `0x7FF` in bits 62..52. -/
def infMagnitude : Nat := 0x7FF * 2 ^ 52

/-- The bit pattern of `1.0`. -/
def one64 : DWord := 0x3FF0000000000000#64

/-- A sign bit and 63 magnitude bits as a pattern. -/
def pack64 (neg : Bool) (magnitude : Nat) : DWord :=
  BitVec.ofNat 64 ((if neg then 2 ^ 63 else 0) + magnitude)

/-- The units of a finite magnitude (exponent field below 0x7FF): subnormal, or with the hidden
bit. -/
def unitsOfMagnitude (magnitude : Nat) : Nat :=
  if magnitude < 2 ^ 52 then magnitude
  else (2 ^ 52 + magnitude % 2 ^ 52) * 2 ^ (magnitude / 2 ^ 52 - 1)

/-- Sign in bit 63, exponent in bits 62..52, fraction in bits 51..0 (G4). -/
def Binary64.ofBits (v : DWord) : Binary64 :=
  let neg := v.getLsbD 63
  let magnitude := v.toNat % 2 ^ 63
  if magnitude < infMagnitude then .finite neg (unitsOfMagnitude magnitude)
  else if magnitude = infMagnitude then .infinite neg
  else .nan

/-- The magnitude bits of the binary64 nearest `num / den` units, ties to even; infinity's when it
is too large (G1, G6). With the exponent `e`, the significand is the rounded quotient by
`den * 2^e`; adding it to `e * 2^52` sets the exponent field, and a significand that rounds up to
the next power of two carries into it. -/
def roundUnits (num den : Nat) : Nat :=
  let e := Nat.log2 (num / den) - 52
  let d := den * 2 ^ e
  let q := num / d
  let r := num % d
  let q' := if d < 2 * r ∨ (2 * r = d ∧ q % 2 = 1) then q + 1 else q
  min (e * 2 ^ 52 + q') infMagnitude

/-- `fl(s)`: the binary64 nearest the integer (R14, R229). -/
def floatOfInt (s : Int) : DWord :=
  pack64 (decide (s < 0)) (roundUnits (s.natAbs * unitsPerOne) 1)

/-- The signed number of units of a finite value. -/
def signedUnits (neg : Bool) (units : Nat) : Int := if neg then -(units : Int) else units

/-- `x <f y` on values: false when either is not a number. -/
def Binary64.lt : Binary64 → Binary64 → Bool
  | .nan, _ => false
  | _, .nan => false
  | .infinite true, .infinite true => false
  | .infinite true, _ => true
  | .infinite false, _ => false
  | .finite _ _, .infinite neg => !neg
  | .finite nx ux, .finite ny uy => decide (signedUnits nx ux < signedUnits ny uy)

/-- `x <f y` (R14). -/
def lt64 (x y : DWord) : Bool := (Binary64.ofBits x).lt (Binary64.ofBits y)

/-- `x /f y` (R14). A NaN result is the free constant `Config.nanResult`; no command reaches one
(R232). -/
def div64 (x y : DWord) : DWord :=
  match Binary64.ofBits x, Binary64.ofBits y with
  | .nan, _ => Config.nanResult
  | _, .nan => Config.nanResult
  | .infinite _, .infinite _ => Config.nanResult
  | .infinite nx, .finite ny _ => pack64 (nx ^^ ny) infMagnitude
  | .finite nx _, .infinite ny => pack64 (nx ^^ ny) 0
  | .finite nx ux, .finite ny uy =>
    if uy = 0 then (if ux = 0 then Config.nanResult else pack64 (nx ^^ ny) infMagnitude)
    else pack64 (nx ^^ ny) (roundUnits (ux * unitsPerOne) uy)

/-- `x *f y` (R14). A NaN result as in `div64`. -/
def mul64 (x y : DWord) : DWord :=
  match Binary64.ofBits x, Binary64.ofBits y with
  | .nan, _ => Config.nanResult
  | _, .nan => Config.nanResult
  | .infinite nx, .infinite ny => pack64 (nx ^^ ny) infMagnitude
  | .infinite nx, .finite ny uy =>
    if uy = 0 then Config.nanResult else pack64 (nx ^^ ny) infMagnitude
  | .finite nx ux, .infinite ny =>
    if ux = 0 then Config.nanResult else pack64 (nx ^^ ny) infMagnitude
  | .finite nx ux, .finite ny uy => pack64 (nx ^^ ny) (roundUnits (ux * uy) unitsPerOne)

/-- Factor admission (R227): finite and nonzero, `F[62:52] != 0x7FF` and `F[62:0] != 0`. -/
def factorAdmitted (f : DWord) : Bool :=
  f.extractLsb' 52 11 != 0x7FF#11 && f.extractLsb' 0 63 != 0#63

/-- The scale rule (R228): below 1 divide by the rounded reciprocal, above 1 multiply, at 1 leave
unscaled. The division branch is not a multiplication by the factor (R231). -/
def scale (x factor : DWord) : DWord :=
  if lt64 factor one64 then div64 x (div64 one64 factor)
  else if lt64 one64 factor then mul64 x factor
  else x

end Sys2Proof.Machine
end

