-- ==== Sys2Proof/Machine/Operands.lean ====
section
/-! DEFINITION. How operands and wire bytes are assembled (30_encoding.md R74, R83; 20_memory.md
R52; 43_septet.md R175, R176; 45_field_extractor.md R223, R226). -/

namespace Sys2Proof.Machine

/-- Byte `i` of a telegram, `b[i]` of R12. Every use is behind a length check (R120, R194), so the
value for an absent byte is never part of a result (assumption log 10). -/
def byteAt (buf : List Byte) (i : Nat) : Byte := buf.getD i 0

/-- `b[off .. off + n)` of R12. -/
def slice (buf : List Byte) (off n : Nat) : List Byte := (buf.drop off).take n

/-- A little-endian u16: `lo | hi << 8` (R52, R74). -/
def le16 (lo hi : Byte) : Half := hi ++ lo

/-- The low byte of a u16, the one at the lower offset (R52). -/
def lowByte (h : Half) : Byte := h.extractLsb' 0 8

/-- The high byte of a u16 (R52). -/
def highByte (h : Half) : Byte := h.extractLsb' 8 8

/-- The bytes as an unsigned little-endian integer: byte `k` contributes `b[k] << (8*k)` (R223; the
contributions are disjoint, so OR is the sum). No bytes give 0. -/
def leNat : List Byte → Nat
  | [] => 0
  | b :: bs => b.toNat + 256 * leNat bs

/-- Two's-complement reading over `8 * size` bits (R226). Used for `size` 1..8 only. -/
def signedValue (raw size : Nat) : Int :=
  if raw ≥ 2 ^ (8 * size - 1) then (raw : Int) - 2 ^ (8 * size) else raw

/-- The four data bytes of a frame or of an operand (R71, R83). -/
structure Block where
  /-- byte 0 -/
  b0 : Byte
  /-- byte 1 -/
  b1 : Byte
  /-- byte 2 -/
  b2 : Byte
  /-- byte 3 -/
  b3 : Byte
deriving DecidableEq, Repr

/-- `d_j = A[8j+7:8j]` (R83). -/
def Block.ofWord (a : Word) : Block :=
  ⟨a.extractLsb' 0 8, a.extractLsb' 8 8, a.extractLsb' 16 8, a.extractLsb' 24 8⟩

/-- `r_0 + (r_1 << 8) + (r_2 << 16) + (r_3 << 24)` (R86). -/
def Block.toWord (b : Block) : Word := b.b3 ++ b.b2 ++ b.b1 ++ b.b0

/-- The bytes in order. -/
def Block.toList (b : Block) : List Byte := [b.b0, b.b1, b.b2, b.b3]

/-- The four bytes from offset `off` (R202). -/
def Block.at (buf : List Byte) (off : Nat) : Block :=
  ⟨byteAt buf off, byteAt buf (off + 1), byteAt buf (off + 2), byteAt buf (off + 3)⟩

end Sys2Proof.Machine
end

