-- ==== Sys2Proof/Machine/Field.lean ====
section
/-! DEFINITION. The field extractor (45_field_extractor.md). -/

namespace Sys2Proof.Machine

/-- A field read (R224): refused without a packet, then the range check with a sum that does not
wrap (R221), then admission of the operands (R222, R227), then the read (R223). -/
def fieldRead (s : State) (offset size : Word) (admitted : Bool) (result : Nat → Response) :
    StepResult :=
  acceptCommand s fun s =>
    match s.packet with
    | none => refuseCommand s
    | some p =>
      if p.plen < offset.toNat + size.toNat then
        raiseError s (.offsetOutOfRange offset size p.plen)
      else if !admitted then refuseCommand s
      else
        match Memory.readRange p.pay offset.toNat size.toNat with
        | none => .fault .absentPayloadByte
        | some bytes => .next (s.respond (result (leNat bytes)))

/-- Sizes of GET_RAW and GET_TIME: 0..8 (R222). -/
def sizeAdmitted (size : Word) : Bool := decide (size.toNat ≤ 8)

/-- Sizes of GET_TEMPERATURE: 1..8 (R222). -/
def signedSizeAdmitted (size : Word) : Bool := decide (1 ≤ size.toNat) && decide (size.toNat ≤ 8)

/-- GET_RAW (R225). -/
def execGetRaw (offset size : Word) (s : State) : StepResult :=
  fieldRead s offset size (sizeAdmitted size) fun raw => .ok (BitVec.ofNat 64 raw)

/-- GET_TEMPERATURE (R230). -/
def execGetTemperature (offset size : Word) (factor : DWord) (s : State) : StepResult :=
  fieldRead s offset size (signedSizeAdmitted size && factorAdmitted factor) fun raw =>
    .ok (scale (floatOfInt (signedValue raw size.toNat)) factor)

/-- The ASCII digit of a value below 10 (R238). -/
def asciiDigit (n : Nat) : Byte := BitVec.ofNat 8 (0x30 + n)

/-- The decimal digits, most significant first, of a number of at most `fuel` digits. -/
def decimalDigits : Nat → Nat → List Byte
  | 0, _ => []
  | fuel + 1, n =>
    if n < 10 then [asciiDigit n] else decimalDigits fuel (n / 10) ++ [asciiDigit (n % 10)]

/-- At least two digits, padded with '0' on the left; 20 digits hold every u64 (R238). -/
def paddedDigits (n : Nat) : List Byte :=
  if n < 10 then [asciiDigit 0, asciiDigit n] else decimalDigits 20 n

/-- `hhmm_text` (R238): hours, ':' (0x3A), minutes. -/
def hhmmText (hours minutes : Nat) : List Byte := paddedDigits hours ++ 0x3A#8 :: paddedDigits minutes

/-- GET_TIME (R235 to R237): no wraparound at 24 hours. -/
def execGetTime (offset size : Word) (s : State) : StepResult :=
  fieldRead s offset size (sizeAdmitted size) fun raw =>
    .ok (BitVec.ofNat 64 (raw / 60)) (some (BitVec.ofNat 64 (raw % 60)))
      (some (hhmmText (raw / 60) (raw % 60)))

end Sys2Proof.Machine
end

