-- ==== Sys2Proof/Machine/HostPort.lean ====
section
/-! DEFINITION. The host transactions without a command word: LOAD (20_memory.md R55), READ
(10_state.md R31) and RESET (70_reset_and_hazards.md R290). -/

namespace Sys2Proof.Machine

/-- LOAD takes this buffer (R55): BUSY = 0, at most BUF_CAP bytes, fewer than 2^32. -/
def loadAccepted (s : State) (n : Nat) : Bool :=
  !s.busy && decide (n ≤ Config.bufCap) && decide (n < Config.lenBound)

/-- LOAD (R55): writes IBUF and LEN and nothing else. -/
def execLoad (bytes : List Byte) (s : State) : StepResult :=
  if loadAccepted s bytes.length then
    .next (s.withInput (Memory.ofBytes bytes) (BitVec.ofNat 32 bytes.length))
  else refuseTransaction s

/-- READ (R31): returns the register's value, or is refused and returns none (R262 causes 8, 9). -/
def execRead (number : Nat) (s : State) : StepResult :=
  if s.readAllowed number then
    match s.registerValue number with
    | some v => .next (s.withReadPort (some v))
    | none => refuseTransaction (s.withReadPort none)
  else refuseTransaction (s.withReadPort none)

/-- RESET (R290): accepted at any time, BUSY included; every piece of the core's state takes its
reset value. What the host has still to present is the host's (assumption log 18). -/
def execReset (s : State) : StepResult := .next (State.reset.withPending s.pending)

end Sys2Proof.Machine
end

