-- ==== Sys2Proof/Machine/Reserved.lean ====
section
/-! DEFINITION. The reserved commands (30_encoding.md R85): refused, 60_exceptions.md R262 cause 2. -/

namespace Sys2Proof.Machine

/-- OP 0x0 (R85). -/
def execReservedOp0 (s : State) : StepResult := acceptCommand s refuseCommand

/-- OP 0xE (R85). -/
def execReservedOpE (s : State) : StepResult := acceptCommand s refuseCommand

/-- OP 0xF (R85). -/
def execReservedOpF (s : State) : StepResult := acceptCommand s refuseCommand

end Sys2Proof.Machine
end

