-- ==== Sys2Proof/Machine/Checksum.lean ====
section
/-! DEFINITION. The modular checksum engine (40_checksum.md). -/

namespace Sys2Proof.Machine

/-- One byte: `crc <- (crc - byte) mod 128`, the mathematical remainder (R100). -/
def checksumStep (crc : Int) (b : Byte) : Int := (crc - (b.toNat : Int)) % Config.ckMod

/-- The checksum of a byte sequence, in ascending order from 0x7F (R100). -/
def checksumOf (bytes : List Byte) : Nat := (bytes.foldl checksumStep Config.ckInit).toNat

/-- `checksum7(buf, offset, length)` (R100). -/
def checksum7 (buf : List Byte) (offset length : Nat) : Nat := checksumOf (slice buf offset length)

/-- CHECKSUM7 (R105): refused when `offset + length > LEN`, the sum without wrap. -/
def execChecksum7 (offset length : Word) (s : State) : StepResult :=
  acceptCommand s fun s =>
    if s.len.toNat < offset.toNat + length.toNat then refuseCommand s
    else
      match Memory.readRange s.ibuf offset.toNat length.toNat with
      | none => .fault .absentInputByte
      | some bytes => returnOk s (BitVec.ofNat 64 (checksumOf bytes))

end Sys2Proof.Machine
end

