-- ==== Sys2Proof/Machine/Header.lean ====
section
/-! DEFINITION. The header parser and the header accessors (41_header.md). -/

namespace Sys2Proof.Machine

/-- The record `parse_header` returns (R120). -/
structure Header where
  /-- destination -/
  dest : Half
  /-- source -/
  src : Half
  /-- protocol id -/
  proto : Byte
  /-- command -/
  cmd : Half
  /-- frame count -/
  fc : Byte
  /-- header checksum -/
  hc : Byte
deriving DecidableEq, Repr

/-- `expectedLength = 10 + frameCount*6` (R127). -/
def telegramLength (fc : Byte) : Nat := Config.hdrLen + Config.frameLen * fc.toNat

/-- The header's fields (R70, R74). -/
def headerFields (buf : List Byte) : Header where
  dest := le16 (byteAt buf 1) (byteAt buf 2)
  src := le16 (byteAt buf 3) (byteAt buf 4)
  proto := byteAt buf 5
  cmd := le16 (byteAt buf 6) (byteAt buf 7)
  fc := byteAt buf 8
  hc := byteAt buf 9

/-- `parse_header` (R120): its steps in order, the first that fails decides (R121 to R127). -/
def parseHeader (buf : List Byte) : Except VBusError Header :=
  if buf.length = 0 ∨ byteAt buf 0 ≠ Config.sync then .error .syncByteMismatch
  else if buf.length < 6 then .error (.headerTooShort buf.length)
  else if byteAt buf 5 ∉ Config.protoSupported then .error (.unsupportedProtocol (byteAt buf 5))
  else if buf.length < Config.hdrLen then .error (.headerTooShort buf.length)
  else if checksum7 buf 1 8 ≠ (byteAt buf 9).toNat then
    .error (.headerChecksumMismatch (checksum7 buf 1 8) (byteAt buf 9))
  else if buf.length ≠ telegramLength (byteAt buf 8) then
    .error (.lengthMismatch (telegramLength (byteAt buf 8)) buf.length)
  else .ok (headerFields buf)

/-- A header accessor (R130 to R135): refused without a packet. -/
def headerRead (s : State) (field : Packet → DWord) : StepResult :=
  acceptCommand s fun s =>
    match s.packet with
    | none => refuseCommand s
    | some p => returnOk s (field p)

/-- GET_DEST (R130). -/
def execGetDest (s : State) : StepResult := headerRead s (fun p => p.dest.setWidth 64)

/-- GET_SRC (R131). -/
def execGetSrc (s : State) : StepResult := headerRead s (fun p => p.src.setWidth 64)

/-- GET_PROTO (R132). -/
def execGetProto (s : State) : StepResult := headerRead s (fun p => p.proto.setWidth 64)

/-- GET_CMD (R133). -/
def execGetCmd (s : State) : StepResult := headerRead s (fun p => p.cmd.setWidth 64)

/-- GET_FCNT (R134). -/
def execGetFcnt (s : State) : StepResult := headerRead s (fun p => p.fcnt.setWidth 64)

/-- GET_HCHK (R135). -/
def execGetHchk (s : State) : StepResult := headerRead s (fun p => p.hchk.setWidth 64)

end Sys2Proof.Machine
end

