-- ==== Sys2Proof/Machine/Septet.lean ====
section
/-! DEFINITION. The septet codec (43_septet.md). -/

namespace Sys2Proof.Machine

/-- One lane of the restoration: OR 0x80 when its septet bit is 1 (R170, R177). -/
def restoreLane (d s : Byte) (j : Nat) : Byte := d ||| (if s.getLsbD j then 0x80#8 else 0x00#8)

/-- `septet_restore` (R170). Bits 4..7 of `s` are not read (R171). -/
def septetRestore (d : Block) (s : Byte) : Block :=
  ⟨restoreLane d.b0 s 0, restoreLane d.b1 s 1, restoreLane d.b2 s 2, restoreLane d.b3 s 3⟩

/-- Bit 7 of a byte, moved to bit `j` (R172). -/
def strippedBit (b : Byte) (j : Nat) : Byte := (b >>> 7) <<< j

/-- `septet_encode` (R172): the wire bytes and the septet byte. -/
def septetEncode (b : Block) : Block × Byte :=
  (⟨b.b0 &&& 0x7F#8, b.b1 &&& 0x7F#8, b.b2 &&& 0x7F#8, b.b3 &&& 0x7F#8⟩,
    strippedBit b.b0 0 ||| strippedBit b.b1 1 ||| strippedBit b.b2 2 ||| strippedBit b.b3 3)

/-- SEPTET_RESTORE (R175). -/
def execSeptetRestore (data : Word) (septet : Byte) (s : State) : StepResult :=
  acceptCommand s fun s =>
    returnOk s ((septetRestore (Block.ofWord data) septet).toWord.setWidth 64)

/-- SEPTET_ENCODE (R176). -/
def execSeptetEncode (data : Word) (s : State) : StepResult :=
  acceptCommand s fun s =>
    let wire := septetEncode (Block.ofWord data)
    returnOk s (wire.1.toWord.setWidth 64) (some (wire.2.setWidth 64))

end Sys2Proof.Machine
end

