-- ==== Sys2Proof/Machine/Telegram.lean ====
section
/-! DEFINITION. The integrity guard (42_integrity_guard.md), the frame decoder and DECODE
(44_frame_decoder.md). -/

namespace Sys2Proof.Machine

/-- The scan from offset `j` on, ascending (R150, R151). -/
def guardFrom : Nat → List Byte → Except VBusError Unit
  | _, [] => .ok ()
  | j, b :: bs => if b &&& 0x80#8 ≠ 0 then .error (.highBitSetError j b) else guardFrom (j + 1) bs

/-- `guard` (R150): every byte after the sync byte. -/
def integrityGuard (buf : List Byte) : Except VBusError Unit := guardFrom 1 (buf.drop 1)

/-- `frameOffset = 10 + 6*i` (R191). -/
def frameOffset (i : Nat) : Nat := Config.hdrLen + Config.frameLen * i

/-- `payloadOffset = 4*i` (R191). -/
def payloadOffset (i : Nat) : Nat := Config.frameData * i

/-- The four restored bytes of frame `i` (R202). -/
def restoredFrame (buf : List Byte) (i : Nat) : Block :=
  septetRestore (Block.at buf (frameOffset i)) (byteAt buf (frameOffset i + 4))

/-- `n` frames from frame `i` on, into the payload `p` (R190): checksum before restoration (R192),
the first failing frame ends the decode (R193, R196). -/
def decodeFramesFrom (buf : List Byte) : Nat → Nat → Memory → Except VBusError Memory
  | 0, _, p => .ok p
  | n + 1, i, p =>
    let expected := checksum7 buf (frameOffset i) 5
    let got := byteAt buf (frameOffset i + 5)
    if expected ≠ got.toNat then .error (.frameChecksumMismatch i expected got)
    else decodeFramesFrom buf n (i + 1)
      (Memory.writeRange p (payloadOffset i) (restoredFrame buf i).toList)

/-- `decode_frames` (R190). -/
def decodeFrames (buf : List Byte) (fc : Nat) : Except VBusError Memory :=
  decodeFramesFrom buf fc 0 []

/-- The packet a successful DECODE commits (R206). -/
def Header.toPacket (h : Header) (pay : Memory) : Packet :=
  ⟨h.dest, h.src, h.proto, h.cmd, h.fc, h.hc, pay⟩

/-- The three stages in strict order, the first error ends the decode (R200). -/
def decodeTelegram (buf : List Byte) : Except VBusError Packet :=
  match parseHeader buf with
  | .error e => .error e
  | .ok h =>
    match integrityGuard buf with
    | .error e => .error e
    | .ok () =>
      match decodeFrames buf h.fc.toNat with
      | .error e => .error e
      | .ok pay => .ok (h.toPacket pay)

/-- DECODE (R206, R207): no earlier packet survives it. -/
def execDecode (s : State) : StepResult :=
  acceptCommand s fun s =>
    match Memory.readRange s.ibuf 0 s.len.toNat with
    | none => .fault .absentInputByte
    | some buf =>
      match decodeTelegram buf with
      | .error e => raiseError (s.withPacket none) e
      | .ok p => returnOk (s.withPacket (some p)) (BitVec.ofNat 64 p.plen)

end Sys2Proof.Machine
end

