-- ==== Sys2Proof/Machine/Dispatch.lean ====
section
/-! DEFINITION. One arm per row of spec/opcode_table.json (30_encoding.md R82, R85; 10_state.md R20). -/

namespace Sys2Proof.Machine

def exec (i : Instr) (s : State) : Host.Outcome State Fault Refusal :=
  match i with
  | .decode => Sys2Proof.Machine.execDecode s
  | .getRaw offset size => Sys2Proof.Machine.execGetRaw offset size s
  | .getTemperature offset size factor => Sys2Proof.Machine.execGetTemperature offset size factor s
  | .getTime offset size => Sys2Proof.Machine.execGetTime offset size s
  | .checksum7 offset length => Sys2Proof.Machine.execChecksum7 offset length s
  | .septetRestore data septet => Sys2Proof.Machine.execSeptetRestore data septet s
  | .septetEncode data => Sys2Proof.Machine.execSeptetEncode data s
  | .getDest => Sys2Proof.Machine.execGetDest s
  | .getSrc => Sys2Proof.Machine.execGetSrc s
  | .getProto => Sys2Proof.Machine.execGetProto s
  | .getCmd => Sys2Proof.Machine.execGetCmd s
  | .getFcnt => Sys2Proof.Machine.execGetFcnt s
  | .getHchk => Sys2Proof.Machine.execGetHchk s
  | .reservedOp0 => Sys2Proof.Machine.execReservedOp0 s
  | .reservedOpE => Sys2Proof.Machine.execReservedOpE s
  | .reservedOpF => Sys2Proof.Machine.execReservedOpF s
  | .load bytes => Sys2Proof.Machine.execLoad bytes s
  | .read number => Sys2Proof.Machine.execRead number s
  | .reset => Sys2Proof.Machine.execReset s

end Sys2Proof.Machine
end

