-- ==== Sys2Proof/Machine/Step.lean ====
section
/-! DEFINITION. One step: the host's next transaction, decoded and run (00_scope.md R17; 10_state.md
R20; 20_memory.md R60). -/

namespace Sys2Proof.Machine

/-- One step of the core. -/
def step (s : State) : Host.Outcome State Fault Refusal :=
  match fetch s with
  | none => idle s
  | some (t, s') =>
    match decode t with
    | .ok i => exec i s'
    | .error e => undecodable e s'

/-- The state whose next step takes the command of `nbits` bits `w`: the host presents it first
(assumption log 1, 17). -/
def State.withFetchWord (s : State) (nbits w : Nat) : State :=
  present s (.command (commandOfWord nbits w))

end Sys2Proof.Machine
end

