-- ==== Sys2Proof/Safety.lean ====
section
/-! DEFINITION. What a state of a run satisfies, in the terms claims use: what holds of a buffer, a
packet, the response registers and the handshake at reset and after every step; and what a rounded
binary64 value is. -/

namespace Sys2Proof.Machine

/-- The buffer holds exactly the bytes at offsets 0..n-1, in canonical form (R22, R27). -/
def Memory.holds (m : Memory) (n : Nat) : Prop :=
  m.wf ∧ ∀ a, (Memory.read m a).isSome = true ↔ a < n

/-- IBUF holds LEN bytes, and LEN is at most BUF_CAP (R22). -/
def State.inputInv (s : State) : Prop :=
  Memory.holds s.ibuf s.len.toNat ∧ s.len.toNat ≤ Config.bufCap

/-- The 8 bytes the header checksum covers, from the header registers (R106, R129). -/
def Packet.headerBytes (p : Packet) : List Byte :=
  [lowByte p.dest, highByte p.dest, lowByte p.src, highByte p.src, p.proto, lowByte p.cmd,
    highByte p.cmd, p.fcnt]

/-- The legal values of the header registers and of PAY (R26, R27, R129). -/
structure Packet.Legal (p : Packet) : Prop where
  /-- PAY holds PLEN bytes (R27). -/
  pay : Memory.holds p.pay p.plen
  /-- "bits 7 and 15 are 0" (R26, DEST). -/
  dest : p.dest.getLsbD 7 = false ∧ p.dest.getLsbD 15 = false
  /-- "bits 7 and 15 are 0" (R26, SRC). -/
  src : p.src.getLsbD 7 = false ∧ p.src.getLsbD 15 = false
  /-- "0x10 only" (R26, PROTO). -/
  proto : p.proto = 0x10#8
  /-- "bits 7 and 15 are 0" (R26, CMD). -/
  cmd : p.cmd.getLsbD 7 = false ∧ p.cmd.getLsbD 15 = false
  /-- "0..127" (R26, FCNT). -/
  fcnt : p.fcnt.toNat ≤ 127
  /-- "equal to checksum7 of header bytes 1..8" (R26, R129, HCHK). -/
  hchk : p.hchk.toNat = checksumOf p.headerBytes

/-- A held packet is legal. -/
def State.packetInv (s : State) : Prop := ∀ p, s.packet = some p → p.Legal

/-- Which response registers hold a value, by status code (R29, R260), with the length of TS. -/
structure Response.Legal (r : Response) : Prop where
  /-- Only the codes 0x0 to 0x8 and 0xF are produced (R260). -/
  st : ∀ c, r.st = some c → c.toNat ≤ 8 ∨ c = 0xF#4
  /-- E0 holds a value when ST is 0x2..0x8. -/
  e0 : r.e0.isSome = true ↔ ∃ c, r.st = some c ∧ 2 ≤ c.toNat ∧ c.toNat ≤ 8
  /-- E1 holds a value when ST is 0x4..0x8. -/
  e1 : r.e1.isSome = true ↔ ∃ c, r.st = some c ∧ 4 ≤ c.toNat ∧ c.toNat ≤ 8
  /-- E2 holds a value when ST is 0x7 or 0x8. -/
  e2 : r.e2.isSome = true ↔ r.st = some 0x7#4 ∨ r.st = some 0x8#4
  /-- R0 holds a value when ST is 0x0. -/
  r0 : r.r0.isSome = true ↔ r.st = some 0x0#4
  /-- R1 holds a value only when ST is 0x0. -/
  r1 : r.r1.isSome = true → r.st = some 0x0#4
  /-- TS holds a value only beside R1, and is 5..21 bytes long. -/
  ts : ∀ text, r.ts = some text → r.r1.isSome = true ∧ 5 ≤ text.length ∧ text.length ≤ 21

/-- The response registers are legal, and a refused command has left its mark (R29, R260, R262). -/
def State.responseInv (s : State) : Prop :=
  s.resp.Legal ∧ (s.resp.st = some 0xF#4 → s.refused = true)

/-- What every state of a run satisfies; BUSY reads 0 (R25, R296). -/
structure State.Inv (s : State) : Prop where
  /-- BUSY = 0 -/
  busy : s.busy = false
  /-- IBUF and LEN -/
  input : s.inputInv
  /-- the packet -/
  packet : s.packetInv
  /-- the response registers -/
  response : s.responseInv

/-- A telegram DECODE accepts (R204). -/
structure Accepted (buf : List Byte) : Prop where
  /-- condition 1, with `LEN` the number of bytes -/
  start : 10 ≤ buf.length ∧ byteAt buf 0 = 0xAA#8 ∧ byteAt buf 5 = 0x10#8
  /-- condition 2 -/
  headerChecksum : (byteAt buf 9).toNat = checksum7 buf 1 8
  /-- condition 3 -/
  length : buf.length = 10 + 6 * (byteAt buf 8).toNat
  /-- condition 4 -/
  highBits : ∀ j, 1 ≤ j → j < buf.length → (byteAt buf j).toNat ≤ 0x7F
  /-- condition 5 -/
  frameChecksums : ∀ i, i < (byteAt buf 8).toNat →
    (byteAt buf (10 + 6 * i + 5)).toNat = checksum7 buf (10 + 6 * i) 5

/-- IBUF holds this telegram and the core can take a command (R22, R296). -/
def State.readyWith (s : State) (buf : List Byte) : Prop :=
  s.busy = false ∧ Memory.readRange s.ibuf 0 s.len.toNat = some buf

/-- The core can take a command and holds this packet, with PAY complete (R27, R296). -/
def State.readyFor (s : State) (p : Packet) : Prop :=
  s.busy = false ∧ s.packet = some p ∧ Memory.holds p.pay p.plen

/-- `q` is the magnitude of the binary64 nearest the exact `num / den` units of 2^-1074, ties to even
(R14; the rounding is IEEE 754's, which the spec supplies as general knowledge, G1 and G6;
assumption log 20). -/
structure NearestEven (num den q : Nat) : Prop where
  /-- a finite magnitude or infinity's -/
  le : q ≤ infMagnitude
  /-- infinity exactly from the largest finite value plus half a unit in its last place on -/
  overflow : q = infMagnitude ↔ den * ((2 ^ 54 - 1) * 2 ^ 2044) ≤ num
  /-- no other finite magnitude is nearer, and a tie has the even answer -/
  nearest : q < infMagnitude → ∀ m, m < infMagnitude → m ≠ q →
    let off := fun (x : Nat) => ((num : Int) - den * unitsOfMagnitude x).natAbs
    off q ≤ off m ∧ (off q = off m → q % 2 = 0)

/-- The pattern has this sign in bit 63 and this magnitude in bits 62..0 (G4). -/
def HasSignMagnitude (v : DWord) (neg : Bool) (magnitude : Nat) : Prop :=
  v.getLsbD 63 = neg ∧ v.toNat % 2 ^ 63 = magnitude

/-- The pattern is the binary64 nearest `(-1)^neg * num / den` units, ties to even (R14). -/
def IsRounded (v : DWord) (neg : Bool) (num den : Nat) : Prop :=
  ∃ q, HasSignMagnitude v neg q ∧ NearestEven num den q

/-- The run has kept to the meaning the spec gives: "a claim about a run with REFUSED = 1 says
nothing of the hardware" (R24, R262). -/
def State.meaningful (s : State) : Prop := s.refused = false

end Sys2Proof.Machine
end

