-- ==== Sys2Proof/WellFormed.lean ====
section
/-! DEFINITION. Which instructions have operands in the ranges the spec states for them. The widths
of command operands are in their types; LOAD's length and READ's number are the two ranges left
(spec/opcode_table.json rows LOAD and READ; 20_memory.md R55; 10_state.md R31). An ill-formed
instruction still runs: the spec gives it the refusal of 60_exceptions.md R262 (causes 7 and 8). -/

namespace Sys2Proof

/-- LOAD's buffer fits: "n, 0 <= n <= BUF_CAP" and LEN's 32 bits (R55). -/
def loadFits (bytes : List Byte) : Bool :=
  decide (bytes.length ≤ Config.bufCap) && decide (bytes.length < Config.lenBound)

/-- The register numbers of the read map; "Every other number is reserved" (R31). -/
def registerNumber (n : Nat) : Bool :=
  decide (n ≤ 0xA) || (decide (0x10 ≤ n) && decide (n ≤ 0x24))

/-- Operands in range (R31, R55, R83). -/
def WellFormed : Instr → Bool
  | .decode | .getRaw _ _ | .getTemperature _ _ _ | .getTime _ _ | .checksum7 _ _ => true
  | .septetRestore _ _ | .septetEncode _ => true
  | .getDest | .getSrc | .getProto | .getCmd | .getFcnt | .getHchk => true
  | .reservedOp0 | .reservedOpE | .reservedOpF => true
  | .load bytes => loadFits bytes
  | .read number => registerNumber number
  | .reset => true

end Sys2Proof
end

