-- ==== Sys2Proof/Certificates/Slice0/Obligations.lean ====
section
/-! DEFINITION. The statements for the provers. `⟨st, e0, e1, e2, r0, r1, ts⟩` is the response
registers of 10_state.md R29 in its order, `none` a register that holds no value; `{ s with … }`
says of a next state that everything not named is unchanged. -/

open Sys2Proof Sys2Proof.Machine

/-! ### Encoding and the step -/

/-- For every instruction, decoding its transaction gives it back, and so does decoding the 160 bits
of its command where it has a command word (R80, R82, R83; the serial order of the bits is the
model's, assumption log 17). -/
def Obligations.DecodeOfEncodeIsIdentity : Prop :=
  ∀ i : Instr, decode (encode i) = .ok i ∧
    ∀ w, encodeWord i = some w → w < 2 ^ 160 ∧ decodeTableWord 160 w = some i

/-- A command word has one meaning: a command whose reserved bits are clear is an instruction, and an
instruction the decoder reads from a command encodes to the same command word and to the operands it
reads (R80, R82, R83). -/
def Obligations.DecodedCommandKeepsItsWord : Prop :=
  ∀ c : CommandFields,
    (c.cw.extractLsb' 4 28 = 0#28 → ∃ i, decodeCommand c = .ok i) ∧
    ∀ i : Instr, decodeCommand c = .ok i →
      i.isCommand = true ∧ ∃ c', encode i = .command c' ∧ c'.cw = c.cw ∧
        (2 ≤ c.cw.toNat ∧ c.cw.toNat ≤ 7 → c'.a = c.a) ∧
        (2 ≤ c.cw.toNat ∧ c.cw.toNat ≤ 5 → c'.b = c.b) ∧
        (c.cw = 6#32 → c'.b = c.b &&& 0xFF#32) ∧
        (c.cw = 3#32 → c'.f = c.f)

/-- R84: an operand that a command does not read changes no outcome. A, B and F stand for the
values presented; the command words 2..7 read A, 2..5 read B, 6 reads B[7:0] and 3 reads F. -/
def Obligations.UnreadOperandsAreIgnored : Prop :=
  ∀ (s : State) (cw a b a' b' : Word) (f f' : DWord) (rest : List Transaction),
    (2 ≤ cw.toNat ∧ cw.toNat ≤ 7 → a' = a) →
    (2 ≤ cw.toNat ∧ cw.toNat ≤ 5 → b' = b) →
    (cw = 6#32 → b'.extractLsb' 0 8 = b.extractLsb' 0 8) →
    (cw = 3#32 → f' = f) →
    step { s with pending := .command ⟨cw, a', b', f'⟩ :: rest } =
      step { s with pending := .command ⟨cw, a, b, f⟩ :: rest }

/-- Words written out from R80, R82 and R83 decode to the instruction they stand for. That A, B and F
stand in bits 63..32, 95..64 and 159..96 of a 160-bit word is the model's choice, not the command
format's (assumption log 17, DESIGN CHOICE). -/
def Obligations.WrittenOutWordsDecode : Prop :=
  decodeTableWord 32 0x00000001 = some .decode ∧
  decodeTableWord 160 0x0000000000000000000000040000000600000002 = some (.getRaw 6 4) ∧
  decodeTableWord 160 0x3FB999999999999A000000020000000000000003 =
    some (.getTemperature 0 2 0x3FB999999999999A) ∧
  decodeTableWord 160 0x0000000000000000000000050000000A00000005 = some (.checksum7 10 5) ∧
  decodeTableWord 160 0x0000000000000000FFFFFF0300007F1C00000006 =
    some (.septetRestore 0x00007F1C 0x03) ∧
  decodeTableWord 32 0x0000000D = some .getHchk ∧
  decodeTableWord 32 0x0000000F = some .reservedOpF

/-- R81: a command with a reserved bit of CW set is refused, whatever OP is: REFUSED is set, ST is
0xF, the other response registers hold no value, and nothing else changes. -/
def Obligations.ReservedBitsRefuseTheCommand : Prop :=
  ∀ (s : State) (c : CommandFields) (rest : List Transaction),
    s.pending = .command c :: rest → s.busy = false → c.cw.extractLsb' 4 28 ≠ 0#28 →
    step s = .next { s with
      pending := rest, refused := true, resp := ⟨some 0xF#4, none, none, none, none, none, none⟩ }

/-- A step runs the decoded transaction the host presented first, on the state without it; with
none presented the state is held (assumption log 1 and 2). -/
def Obligations.StepRunsTheDecodedTransaction : Prop :=
  ∀ s : State,
    (∀ t rest i, s.pending = t :: rest → decode t = .ok i →
      step s = exec i { s with pending := rest }) ∧
    (s.pending = [] → step s = .next s)

/-! ### Checksum -/

/-- The checksum of no bytes is 0x7F, and one more byte subtracts it mod 128 (R100). -/
def Obligations.ChecksumSubtractsEachByte : Prop :=
  ∀ (buf : List Byte) (offset length : Nat),
    checksum7 buf offset 0 = 0x7F ∧
    (offset + length < buf.length →
      (checksum7 buf offset (length + 1) : Int) =
        ((checksum7 buf offset length : Int) - (byteAt buf (offset + length)).toNat) % 128)

/-- The closed form and the range of the checksum (the spec's inferences "Closed form:
`checksum7(buf, offset, length) = …`" and "The result is always in 0..0x7F"). -/
def Obligations.ChecksumClosedForm : Prop :=
  ∀ bytes : List Byte,
    (checksumOf bytes : Int) = (0x7F - ((bytes.map (fun b => b.toNat)).sum : Int)) % 128 ∧
    checksumOf bytes ≤ 0x7F

/-- Only bits 6..0 of each byte reach the checksum, and a change to them in exactly one byte always
changes it (the spec's inference "Only bits 6..0 of each byte reach the result"). -/
def Obligations.ChecksumSeesExactlyTheLowSevenBits : Prop :=
  (∀ bytes : List Byte, checksumOf (bytes.map (fun b => b &&& 0x7F#8)) = checksumOf bytes) ∧
  (∀ (before after : List Byte) (x y : Byte),
    checksumOf (before ++ x :: after) = checksumOf (before ++ y :: after) ↔
      x &&& 0x7F#8 = y &&& 0x7F#8)

/-- The checksum does not depend on the order of the bytes (the spec's inference "any permutation …
gives the same result"). -/
def Obligations.ChecksumIgnoresOrder : Prop :=
  ∀ bytes bytes' : List Byte, bytes.Perm bytes' → checksumOf bytes = checksumOf bytes'

/-- CHECKSUM7: the checksum of the bytes in range, refused when the range leaves the buffer, the sum
of offset and length without wrap; nothing but the response (and REFUSED) changes. -/
def Obligations.Checksum7CommandResult : Prop :=
  ∀ (s : State) (offset length : Word), s.busy = false → Memory.holds s.ibuf s.len.toNat →
    (offset.toNat + length.toNat ≤ s.len.toNat → ∃ bytes : List Byte,
      bytes.length = length.toNat ∧
      (∀ k, k < length.toNat → Memory.read s.ibuf (offset.toNat + k) = bytes[k]?) ∧
      exec (.checksum7 offset length) s = .next { s with
        resp := ⟨some 0x0#4, none, none, none, some (BitVec.ofNat 64 (checksumOf bytes)), none, none⟩ }) ∧
    (s.len.toNat < offset.toNat + length.toNat →
      exec (.checksum7 offset length) s = .next { s with
        refused := true, resp := ⟨some 0xF#4, none, none, none, none, none, none⟩ })

/-! ### Septet codec -/

/-- Encoding a block and restoring it gives the block (the spec's inference "for every 4-byte block
b, `septet_restore(septet_encode(b)) = b`"), and the septet byte is 0x00..0x0F. -/
def Obligations.SeptetEncodeThenRestore : Prop :=
  ∀ b : Block, septetRestore (septetEncode b).1 (septetEncode b).2 = b ∧
    (septetEncode b).2.toNat ≤ 0x0F

/-- Restoring wire bytes whose bit 7 is clear and encoding again gives them and the low four septet
bits (the spec's inference "Round trip, restore then encode"). -/
def Obligations.SeptetRestoreThenEncode : Prop :=
  ∀ (d : Block) (s : Byte),
    d.b0.toNat ≤ 0x7F → d.b1.toNat ≤ 0x7F → d.b2.toNat ≤ 0x7F → d.b3.toNat ≤ 0x7F →
    septetEncode (septetRestore d s) = (d, s &&& 0x0F#8)

/-- SEPTET_RESTORE: bit 7 of byte j of R0 is bit 7 of byte j of A or bit j of the septet byte, every
other bit is A's, R0[63:32] is 0; nothing but the response changes. -/
def Obligations.SeptetRestoreCommandResult : Prop :=
  ∀ (s : State) (data : Word) (septet : Byte), s.busy = false → ∃ r : DWord,
    exec (.septetRestore data septet) s = .next { s with
      resp := ⟨some 0x0#4, none, none, none, some r, none, none⟩ } ∧
    ∀ n, r.getLsbD n =
      (data.getLsbD n || (decide (n < 32) && decide (n % 8 = 7) && septet.getLsbD (n / 8)))

/-- SEPTET_ENCODE: R0 is A with bit 7 of each byte clear, bit j of R1 is bit 7 of byte j of A, every
other bit of R1 is 0; nothing but the response changes. -/
def Obligations.SeptetEncodeCommandResult : Prop :=
  ∀ (s : State) (data : Word), s.busy = false → ∃ r q : DWord,
    exec (.septetEncode data) s = .next { s with
      resp := ⟨some 0x0#4, none, none, none, some r, some q, none⟩ } ∧
    (∀ n, r.getLsbD n = (data.getLsbD n && decide (n % 8 ≠ 7))) ∧
    (∀ j, q.getLsbD j = (decide (j < 4) && data.getLsbD (8 * j + 7)))

/-! ### Header accessors -/

/-- GET_DEST to GET_HCHK answer the header register in R0 and change nothing but the response. -/
def Obligations.HeaderAccessorsReadThePacket : Prop :=
  ∀ (s : State) (p : Packet), s.busy = false → s.packet = some p →
    let answers := fun (i : Instr) (v : DWord) => exec i s = .next { s with
      resp := ⟨some 0x0#4, none, none, none, some v, none, none⟩ }
    answers .getDest (p.dest.setWidth 64) ∧ answers .getSrc (p.src.setWidth 64) ∧
    answers .getProto (p.proto.setWidth 64) ∧ answers .getCmd (p.cmd.setWidth 64) ∧
    answers .getFcnt (p.fcnt.setWidth 64) ∧ answers .getHchk (p.hchk.setWidth 64)

/-- R262 cause 3: without a packet every header read and every field read is refused, whatever its
operands (the packet is looked at before them, R224). -/
def Obligations.PacketReadsNeedAPacket : Prop :=
  ∀ (s : State) (offset size : Word) (factor : DWord), s.busy = false → s.packet = none →
    ∀ i ∈ [Instr.getDest, .getSrc, .getProto, .getCmd, .getFcnt, .getHchk, .getRaw offset size,
        .getTemperature offset size factor, .getTime offset size],
      exec i s = .next { s with
        refused := true, resp := ⟨some 0xF#4, none, none, none, none, none, none⟩ }

/-! ### DECODE -/

/-- DECODE answers status OK exactly on the telegrams of the spec's list (its inference "DECODE
succeeds exactly when all of these hold of IBUF"), and then holds a packet; on every other buffer it
holds none and answers one of the codes 0x1 to 0x7; it is never refused. -/
def Obligations.DecodeSucceedsExactlyWhenAccepted : Prop :=
  ∀ (s : State) (buf : List Byte), s.readyWith buf → ∃ t : State,
    exec .decode s = .next t ∧ t.refused = s.refused ∧
    (t.resp.st = some 0x0#4 ↔ Accepted buf) ∧
    (t.packet.isSome = true ↔ Accepted buf) ∧
    (¬ Accepted buf → ∃ c : BitVec 4, t.resp.st = some c ∧ 1 ≤ c.toNat ∧ c.toNat ≤ 7)

/-- The state after a DECODE that succeeds: the header registers are the little-endian fields of the
wire, payload byte 4i + j is wire data byte j of frame i with bit 7 set when bit j of the frame's
septet byte is 1, the payload has 4 bytes a frame, R0 is its length; IBUF, LEN and everything else
are unchanged. -/
def Obligations.DecodeCommitsHeaderAndPayload : Prop :=
  ∀ (s : State) (buf : List Byte), s.readyWith buf → Accepted buf → ∃ p : Packet,
    exec .decode s = .next { s with
      packet := some p
      resp := ⟨some 0x0#4, none, none, none, some (BitVec.ofNat 64 (4 * (byteAt buf 8).toNat)),
        none, none⟩ } ∧
    p.dest.toNat = (byteAt buf 1).toNat + 256 * (byteAt buf 2).toNat ∧
    p.src.toNat = (byteAt buf 3).toNat + 256 * (byteAt buf 4).toNat ∧
    p.proto = byteAt buf 5 ∧
    p.cmd.toNat = (byteAt buf 6).toNat + 256 * (byteAt buf 7).toNat ∧
    p.fcnt = byteAt buf 8 ∧ p.hchk = byteAt buf 9 ∧
    (∀ i j, i < (byteAt buf 8).toNat → j < 4 →
      Memory.read p.pay (4 * i + j) = some (byteAt buf (10 + 6 * i + j) |||
        (if (byteAt buf (10 + 6 * i + 4)).getLsbD j then 0x80#8 else 0x00#8))) ∧
    (∀ a, 4 * (byteAt buf 8).toNat ≤ a → Memory.read p.pay a = none) ∧ p.pay.wf

/-- A DECODE that raises leaves no packet, writes the error's code and arguments, and changes
nothing else (R206, R261). -/
def Obligations.DecodeFailureLeavesNoPacket : Prop :=
  ∀ (s : State) (buf : List Byte), s.readyWith buf → ¬ Accepted buf → ∃ e : VBusError,
    exec .decode s = .next { s with packet := none, resp := Response.ofError e } ∧
    decodeTelegram buf = .error e ∧ ∀ offset size n, e ≠ .offsetOutOfRange offset size n

/-- The checks of the header, in the order of R120: each clause is one failing step with every
earlier one passed, and gives the status and arguments R260 names for it. -/
def Obligations.HeaderStepsFailInOrder : Prop :=
  ∀ (s : State) (buf : List Byte), s.readyWith buf →
    let n := buf.length
    let ends := fun (r : Response) => exec .decode s = .next { s with packet := none, resp := r }
    (n = 0 ∨ byteAt buf 0 ≠ 0xAA#8 → ends ⟨some 0x1#4, none, none, none, none, none, none⟩) ∧
    (1 ≤ n → byteAt buf 0 = 0xAA#8 →
      (n < 6 → ends ⟨some 0x2#4, some (BitVec.ofNat 32 n), none, none, none, none, none⟩) ∧
      (6 ≤ n →
        (byteAt buf 5 ≠ 0x10#8 →
          ends ⟨some 0x3#4, some ((byteAt buf 5).setWidth 32), none, none, none, none, none⟩) ∧
        (byteAt buf 5 = 0x10#8 →
          (n < 10 → ends ⟨some 0x2#4, some (BitVec.ofNat 32 n), none, none, none, none, none⟩) ∧
          (10 ≤ n →
            (checksum7 buf 1 8 ≠ (byteAt buf 9).toNat →
              ends ⟨some 0x4#4, some (BitVec.ofNat 32 (checksum7 buf 1 8)),
                some ((byteAt buf 9).setWidth 32), none, none, none, none⟩) ∧
            (checksum7 buf 1 8 = (byteAt buf 9).toNat → n ≠ 10 + 6 * (byteAt buf 8).toNat →
              ends ⟨some 0x5#4, some (BitVec.ofNat 32 (10 + 6 * (byteAt buf 8).toNat)),
                some (BitVec.ofNat 32 n), none, none, none, none⟩)))))

/-- R151: of several bytes with bit 7 set, the guard reports the one with the lowest offset, by its
offset in IBUF and its value. -/
def Obligations.GuardReportsTheLowestOffset : Prop :=
  ∀ (s : State) (buf : List Byte) (h : Header) (j : Nat), s.readyWith buf →
    parseHeader buf = .ok h → 1 ≤ j → j < buf.length → 0x80 ≤ (byteAt buf j).toNat →
    (∀ k, 1 ≤ k → k < j → (byteAt buf k).toNat ≤ 0x7F) →
    exec .decode s = .next { s with
      packet := none
      resp := ⟨some 0x6#4, some (BitVec.ofNat 32 j), some ((byteAt buf j).setWidth 32), none, none,
        none, none⟩ }

/-- R193: one failing frame aborts the whole decode, no partial packet is kept, and the frames after
it do not matter. The frame reported is the first that fails. -/
def Obligations.FirstFailingFrameAbortsTheDecode : Prop :=
  ∀ (s : State) (buf : List Byte) (h : Header) (i : Nat), s.readyWith buf →
    parseHeader buf = .ok h → (∀ j, 1 ≤ j → j < buf.length → (byteAt buf j).toNat ≤ 0x7F) →
    i < h.fc.toNat → checksum7 buf (10 + 6 * i) 5 ≠ (byteAt buf (10 + 6 * i + 5)).toNat →
    (∀ k, k < i → checksum7 buf (10 + 6 * k) 5 = (byteAt buf (10 + 6 * k + 5)).toNat) →
    exec .decode s = .next { s with
      packet := none
      resp := ⟨some 0x7#4, some (BitVec.ofNat 32 i),
        some (BitVec.ofNat 32 (checksum7 buf (10 + 6 * i) 5)),
        some ((byteAt buf (10 + 6 * i + 5)).setWidth 32), none, none, none⟩ }

/-- The outcome of every single-byte corruption of an accepted telegram `v`: the table the spec
infers under "Take any buffer V that DECODE accepts and replace the byte at offset j". -/
def Obligations.SingleByteCorruptionOutcome : Prop :=
  ∀ (s : State) (v : List Byte) (j : Nat) (x : Byte), Accepted v → j < v.length →
    byteAt v j ≠ x → s.readyWith (v.set j x) →
    let raises := fun (e : VBusError) => exec .decode s = .next { s with
      packet := none, resp := Response.ofError e }
    let sameLowBits := x &&& 0x7F#8 = byteAt v j &&& 0x7F#8
    let newHeaderSum := checksum7 (v.set j x) 1 8
    (j = 0 → raises .syncByteMismatch) ∧
    (j ∈ [1, 2, 3, 4, 6, 7, 8] → ¬ sameLowBits →
      raises (.headerChecksumMismatch newHeaderSum (byteAt v 9))) ∧
    (j ∈ [1, 2, 3, 4, 6, 7] → sameLowBits → raises (.highBitSetError j x)) ∧
    (j = 5 → raises (.unsupportedProtocol x)) ∧
    (j = 8 → sameLowBits → raises (.lengthMismatch (10 + 6 * x.toNat) v.length)) ∧
    (j = 9 → raises (.headerChecksumMismatch (byteAt v 9).toNat x)) ∧
    (∀ i k, j = 10 + 6 * i + k → k < 6 →
      (0x80 ≤ x.toNat → raises (.highBitSetError j x)) ∧
      (x.toNat ≤ 0x7F → k < 5 → raises (.frameChecksumMismatch i
        (checksum7 (v.set j x) (10 + 6 * i) 5) (byteAt v (10 + 6 * i + 5)))) ∧
      (x.toNat ≤ 0x7F → k = 5 → raises (.frameChecksumMismatch i (byteAt v j).toNat x)))

/-- A second DECODE of the same buffer ends in the same state: same status, arguments and packet. -/
def Obligations.DecodeIsIdempotent : Prop :=
  ∀ s t : State, exec .decode s = .next t → exec .decode t = .next t

/-- R58: no command writes IBUF (or LEN); and no command but DECODE writes the packet. BUSY, what
the host has still to present and what the last READ gave are unchanged too. -/
def Obligations.CommandsNeverWriteTheInputBuffer : Prop :=
  ∀ (i : Instr) (s t : State), i.isCommand = true → exec i s = .next t →
    t.ibuf = s.ibuf ∧ t.len = s.len ∧ t.busy = s.busy ∧ t.pending = s.pending ∧
    t.readPort = s.readPort ∧ (i ≠ .decode → t.packet = s.packet)

/-! ### Field reads -/

/-- R223: byte k of GET_RAW's R0 is payload byte offset + k for k below size, and 0 above (so size 0
gives 0 and the value is below 2^(8*size)); nothing but the response changes. -/
def Obligations.GetRawReadsLittleEndian : Prop :=
  ∀ (s : State) (p : Packet) (offset size : Word), s.readyFor p →
    offset.toNat + size.toNat ≤ p.plen → size.toNat ≤ 8 → ∃ v : DWord,
      exec (.getRaw offset size) s = .next { s with
        resp := ⟨some 0x0#4, none, none, none, some v, none, none⟩ } ∧
      (∀ k, k < size.toNat →
        Memory.read p.pay (offset.toNat + k) = some (v.extractLsb' (8 * k) 8)) ∧
      (∀ k, size.toNat ≤ k → v.extractLsb' (8 * k) 8 = 0#8)

/-- R221: a field read outside the payload raises OffsetOutOfRange with the operands as given and
PLEN, for every size and factor, the sum of offset and size without wrap; inside it never does. -/
def Obligations.FieldReadsCheckTheRange : Prop :=
  ∀ (s : State) (p : Packet) (offset size : Word) (factor : DWord),
    s.busy = false → s.packet = some p →
    ∀ i ∈ [Instr.getRaw offset size, .getTemperature offset size factor, .getTime offset size],
      (4 * p.fcnt.toNat < offset.toNat + size.toNat → exec i s = .next { s with
        resp := ⟨some 0x8#4, some offset, some size, some (BitVec.ofNat 32 (4 * p.fcnt.toNat)), none,
          none, none⟩ }) ∧
      (offset.toNat + size.toNat ≤ 4 * p.fcnt.toNat →
        ∀ t, exec i s = .next t → t.resp.st ≠ some 0x8#4)

/-- R222 and R227: inside the payload, GET_RAW and GET_TIME run for the sizes 0..8 and
GET_TEMPERATURE for the sizes 1..8 and a finite nonzero factor; every other size and factor is
refused. -/
def Obligations.FieldReadsAdmitSizesAndFactors : Prop :=
  ∀ (s : State) (p : Packet) (offset size : Word) (factor : DWord), s.readyFor p →
    offset.toNat + size.toNat ≤ p.plen →
    let runs := fun (i : Instr) => ∃ t, exec i s = .next t ∧ t.resp.st = some 0x0#4 ∧
      t.refused = s.refused
    let refuses := fun (i : Instr) => exec i s = .next { s with
      refused := true, resp := ⟨some 0xF#4, none, none, none, none, none, none⟩ }
    let admitted := factor.extractLsb' 52 11 ≠ 0x7FF#11 ∧ factor.extractLsb' 0 63 ≠ 0#63
    (size.toNat ≤ 8 → runs (.getRaw offset size) ∧ runs (.getTime offset size)) ∧
    (8 < size.toNat → refuses (.getRaw offset size) ∧ refuses (.getTime offset size)) ∧
    (1 ≤ size.toNat ∧ size.toNat ≤ 8 ∧ admitted → runs (.getTemperature offset size factor)) ∧
    (¬ (1 ≤ size.toNat ∧ size.toNat ≤ 8 ∧ admitted) →
      refuses (.getTemperature offset size factor))

/-- GET_TIME: R0 is raw div 60 and R1 is raw mod 60, both unsigned, the hours below 2^59 (R236) and
never reduced by 24; TS is their text; nothing but the response changes. -/
def Obligations.GetTimeSplitsTheMinutes : Prop :=
  ∀ (s : State) (p : Packet) (offset size : Word) (bytes : List Byte), s.readyFor p →
    offset.toNat + size.toNat ≤ p.plen → size.toNat ≤ 8 →
    Memory.readRange p.pay offset.toNat size.toNat = some bytes → ∃ hours minutes : DWord,
      exec (.getTime offset size) s = .next { s with
        resp := ⟨some 0x0#4, none, none, none, some hours, some minutes,
          some (hhmmText hours.toNat minutes.toNat)⟩ } ∧
      hours.toNat = leNat bytes / 60 ∧ minutes.toNat = leNat bytes % 60 ∧ hours.toNat < 2 ^ 59

/-- R238: the text of hours and minutes is ASCII digits, ':' and two ASCII digits; the hours have at
least two digits, no leading '0' beyond two, and are never truncated; 5 to 21 bytes in all. -/
def Obligations.TimeTextSpellsHoursAndMinutes : Prop :=
  ∀ hours minutes : Nat, hours < 2 ^ 59 → minutes < 60 →
    let value := fun (digits : List Byte) =>
      digits.foldl (fun (n : Nat) (d : Byte) => 10 * n + (d.toNat - 0x30)) 0
    ∃ h m : List Byte, hhmmText hours minutes = h ++ 0x3A#8 :: m ∧
      (∀ d ∈ h ++ m, 0x30 ≤ d.toNat ∧ d.toNat ≤ 0x39) ∧
      value h = hours ∧ value m = minutes ∧ m.length = 2 ∧ 2 ≤ h.length ∧
      (2 < h.length → h.head? ≠ some 0x30#8) ∧
      5 ≤ (hhmmText hours minutes).length ∧ (hhmmText hours minutes).length ≤ 21

/-- GET_TEMPERATURE: R0 is the scale rule applied to the float of the two's-complement reading of
the field over 8 * size bits; nothing but the response changes. -/
def Obligations.GetTemperatureScalesTheSignedField : Prop :=
  ∀ (s : State) (p : Packet) (offset size : Word) (factor : DWord) (bytes : List Byte),
    s.readyFor p → offset.toNat + size.toNat ≤ p.plen → 1 ≤ size.toNat → size.toNat ≤ 8 →
    factorAdmitted factor = true →
    Memory.readRange p.pay offset.toNat size.toNat = some bytes → ∃ x : Int,
      exec (.getTemperature offset size factor) s = .next { s with
        resp := ⟨some 0x0#4, none, none, none, some (scale (floatOfInt x) factor), none, none⟩ } ∧
      -(2 ^ (8 * size.toNat - 1) : Int) ≤ x ∧ x < 2 ^ (8 * size.toNat - 1) ∧
      x % 2 ^ (8 * size.toNat) = leNat bytes

/-- R226: two's-complement reading over `8 * size` bits, subtracting `2^bits` from `2^(bits-1)` on. -/
def Obligations.SignedReinterpretation : Prop :=
  ∀ raw size : Nat, 1 ≤ size → size ≤ 8 → raw < 2 ^ (8 * size) →
    (2 ^ (8 * size - 1) ≤ raw → signedValue raw size = (raw : Int) - 2 ^ (8 * size)) ∧
    (raw < 2 ^ (8 * size - 1) → signedValue raw size = raw) ∧
    -(2 ^ (8 * size - 1) : Int) ≤ signedValue raw size ∧
    signedValue raw size ≤ 2 ^ (8 * size - 1) - 1 ∧
    signedValue raw size = ((BitVec.ofNat (8 * size) raw).toInt)

/-- R228: divide by the rounded reciprocal below 1, multiply above 1, leave unscaled at 1; and the
division is not a multiplication by the factor. -/
def Obligations.ScaleRuleIsAsymmetric : Prop :=
  (∀ x factor : DWord,
    (lt64 factor one64 = true → scale x factor = div64 x (div64 one64 factor)) ∧
    (lt64 one64 factor = true → scale x factor = mul64 x factor) ∧
    (lt64 factor one64 = false → lt64 one64 factor = false → scale x factor = x)) ∧
  scale (floatOfInt 3) Config.defaultFactor ≠ mul64 (floatOfInt 3) Config.defaultFactor

/-- A conversion is exact up to 2^53 in magnitude, so for every field of 1 to 6 bytes (the
conversion is IEEE 754 binary64, which the spec supplies as general knowledge). -/
def Obligations.SmallIntegersConvertExactly : Prop :=
  ∀ z : Int, z.natAbs ≤ 2 ^ 53 →
    Binary64.ofBits (floatOfInt z) = .finite (decide (z < 0)) (z.natAbs * unitsPerOne)

/-- The one rounding of the model, `roundUnits`, is to nearest, ties to even: no finite magnitude is
nearer the exact `num / den` units than the answer, a tie has the even answer, and the answer is
infinity exactly from half a unit in the last place above the largest finite value (the rounding is
IEEE 754's, which the spec supplies as general knowledge; assumption log 20). -/
def Obligations.RoundingIsToNearestEven : Prop :=
  ∀ num den : Nat, 0 < den → NearestEven num den (roundUnits num den)

/-- `fl` of every integer, `x /f y` of finite `x` by finite nonzero `y`, and `x *f y` of finite `x`
and `y` have the sign and the nearest-even magnitude of the exact integer, quotient and product
(R14, R228, R229; IEEE 754's rounding, assumption log 20). -/
def Obligations.ArithmeticRoundsTheExactResult : Prop :=
  (∀ z : Int, IsRounded (floatOfInt z) (decide (z < 0)) (z.natAbs * unitsPerOne) 1) ∧
  ∀ (x y : DWord) (nx ny : Bool) (ux uy : Nat),
    Binary64.ofBits x = .finite nx ux → Binary64.ofBits y = .finite ny uy →
    (uy ≠ 0 → IsRounded (div64 x y) (nx ^^ ny) (ux * unitsPerOne) uy) ∧
    IsRounded (mul64 x y) (nx ^^ ny) (ux * uy) unitsPerOne

/-- A pattern is read by its fields, the sign in bit 63, the exponent in bits 62..52 and the fraction
in bits 51..0 (G4), a finite value in units of 2^-1074 (assumption log 20); and a factor is admitted
exactly when it is finite and nonzero (R227). -/
def Obligations.PatternsAreReadByTheirFields : Prop :=
  ∀ v : DWord,
    let sign := v.getLsbD 63
    let exponent := (v.extractLsb' 52 11).toNat
    let fraction := (v.extractLsb' 0 52).toNat
    (exponent = 0 → Binary64.ofBits v = .finite sign fraction) ∧
    (1 ≤ exponent → exponent ≤ 0x7FE →
      Binary64.ofBits v = .finite sign ((2 ^ 52 + fraction) * 2 ^ (exponent - 1))) ∧
    (exponent = 0x7FF → fraction = 0 → Binary64.ofBits v = .infinite sign) ∧
    (exponent = 0x7FF → fraction ≠ 0 → Binary64.ofBits v = .nan) ∧
    (factorAdmitted v = true ↔ ∃ neg units, Binary64.ofBits v = .finite neg units ∧ units ≠ 0)

/-- `x <f y` (R14) is the order of the exact values on finite patterns, the order of signed magnitude
bits on all patterns but NaNs, infinities among them, and false on a NaN (the comparison is IEEE
754's, assumption log 20). -/
def Obligations.ComparisonOrdersTheExactValues : Prop :=
  ∀ x y : DWord,
    let key := fun (v : DWord) =>
      if v.getLsbD 63 then -((v.toNat % 2 ^ 63 : Nat) : Int) else ((v.toNat % 2 ^ 63 : Nat) : Int)
    (∀ nx ux ny uy, Binary64.ofBits x = .finite nx ux → Binary64.ofBits y = .finite ny uy →
      (lt64 x y = true ↔ (if nx then -(ux : Int) else ux) < (if ny then -(uy : Int) else uy))) ∧
    (Binary64.ofBits x ≠ .nan → Binary64.ofBits y ≠ .nan → (lt64 x y = true ↔ key x < key y)) ∧
    (Binary64.ofBits x = .nan ∨ Binary64.ofBits y = .nan → lt64 x y = false)

/-- Division and multiplication with an infinity or by a zero: the sign is the product of the signs,
and the magnitude infinity's or 0 (R14 and R232; IEEE 754's, assumption log 20). A division by an
infinity is the zero of R232. -/
def Obligations.InfinitiesAndZerosKeepTheSignOfTheProduct : Prop :=
  ∀ (x y : DWord) (nx ny : Bool) (ux uy : Nat),
    (Binary64.ofBits x = .finite nx ux → Binary64.ofBits y = .infinite ny →
      HasSignMagnitude (div64 x y) (nx ^^ ny) 0 ∧
      (ux ≠ 0 → HasSignMagnitude (mul64 x y) (nx ^^ ny) infMagnitude)) ∧
    (Binary64.ofBits x = .infinite nx → Binary64.ofBits y = .finite ny uy →
      HasSignMagnitude (div64 x y) (nx ^^ ny) infMagnitude ∧
      (uy ≠ 0 → HasSignMagnitude (mul64 x y) (nx ^^ ny) infMagnitude)) ∧
    (Binary64.ofBits x = .finite nx ux → Binary64.ofBits y = .finite ny 0 → ux ≠ 0 →
      HasSignMagnitude (div64 x y) (nx ^^ ny) infMagnitude) ∧
    (Binary64.ofBits x = .infinite nx → Binary64.ofBits y = .infinite ny →
      HasSignMagnitude (mul64 x y) (nx ^^ ny) infMagnitude)

/-- The scale rule for every finite `x` and every finite nonzero factor (R228, R232), values in units
of 2^-1074. Below 1, every negative factor among them, the reciprocal is rounded first: up to 2^-1024
in magnitude it overflows to the infinity of the factor's sign and the answer is the zero of the sign
of `x` times that of the factor; above that it is finite and nonzero and the answer is the rounded
quotient by it. Above 1 the answer is the rounded product, an infinity of that sign when the product
overflows. At 1 it is `x`. The rounding is IEEE 754's (assumption log 20). -/
def Obligations.ScaleOutcomeForEveryFactor : Prop :=
  ∀ (x factor : DWord) (nx nf : Bool) (ux uf : Nat),
    Binary64.ofBits x = .finite nx ux → Binary64.ofBits factor = .finite nf uf → uf ≠ 0 →
    (nf = true ∨ uf < unitsPerOne →
      (uf ≤ 2 ^ 50 →
        HasSignMagnitude (div64 one64 factor) nf infMagnitude ∧
        HasSignMagnitude (scale x factor) (nx ^^ nf) 0) ∧
      (2 ^ 50 < uf → ∃ ur, 0 < ur ∧
        Binary64.ofBits (div64 one64 factor) = .finite nf ur ∧
        IsRounded (div64 one64 factor) nf (unitsPerOne * unitsPerOne) uf ∧
        IsRounded (scale x factor) (nx ^^ nf) (ux * unitsPerOne) ur)) ∧
    (nf = false → unitsPerOne < uf →
      IsRounded (scale x factor) (nx ^^ nf) (ux * uf) unitsPerOne ∧
      (unitsPerOne * ((2 ^ 54 - 1) * 2 ^ 2044) ≤ ux * uf →
        HasSignMagnitude (scale x factor) (nx ^^ nf) infMagnitude)) ∧
    (nf = false → uf = unitsPerOne → scale x factor = x)

/-- No admitted factor makes a temperature a NaN (the spec's inference "no result is NaN"). -/
def Obligations.TemperatureIsNeverNaN : Prop :=
  ∀ (z : Int) (factor : DWord), z.natAbs ≤ 2 ^ 63 → factorAdmitted factor = true →
    Binary64.ofBits (scale (floatOfInt z) factor) ≠ .nan

/-! ### LOAD, READ, RESET, the flags and the handshake -/

/-- R55: LOAD writes IBUF and LEN and nothing else, and a later read of the whole buffer sees the
bytes; while BUSY = 1, or for a buffer over BUF_CAP or of 2^32 bytes or more, it is refused. -/
def Obligations.LoadDeliversOneBuffer : Prop :=
  ∀ (s : State) (bytes : List Byte),
    (s.busy = false ∧ bytes.length ≤ Config.bufCap ∧ bytes.length < 2 ^ 32 → ∃ m n,
      exec (.load bytes) s = .next { s with ibuf := m, len := n } ∧
      n.toNat = bytes.length ∧ m.wf ∧ (∀ a, Memory.read m a = bytes[a]?) ∧
      Memory.readRange m 0 n.toNat = some bytes) ∧
    (s.busy = true ∨ Config.bufCap < bytes.length ∨ 2 ^ 32 ≤ bytes.length →
      exec (.load bytes) s = .next { s with refused := true })

/-- The read map (R31). A read of a register that holds a value answers it and changes no state of
the core (`readPort`, what the host is given, is the model's own field, assumption log 3; the
number has no width, log 15); a read of a register that
holds no value, of a TS byte past its length or of a reserved number answers none and sets
REFUSED. -/
def Obligations.ReadFollowsTheRegisterMap : Prop :=
  ∀ s : State, s.busy = false →
    let answers := fun (n : Nat) (v : Word) => exec (.read n) s = .next { s with readPort := some v }
    let refuses := fun (n : Nat) => exec (.read n) s = .next { s with
      refused := true, readPort := none }
    let word := fun (n : Nat) (r : Option Word) =>
      (∀ v, r = some v → answers n v) ∧ (r = none → refuses n)
    let dword := fun (n : Nat) (r : Option DWord) =>
      (∀ v, r = some v → answers n (v.extractLsb' 0 32) ∧ answers (n + 1) (v.extractLsb' 32 32)) ∧
      (r = none → refuses n ∧ refuses (n + 1))
    (∀ v, s.resp.st = some v → answers 0x0 (v.setWidth 32)) ∧ (s.resp.st = none → refuses 0x0) ∧
    word 0x1 s.resp.e0 ∧ word 0x2 s.resp.e1 ∧ word 0x3 s.resp.e2 ∧
    dword 0x4 s.resp.r0 ∧ dword 0x6 s.resp.r1 ∧
    answers 0x8 s.len ∧ answers 0x9 s.flags ∧
    (∀ text, s.resp.ts = some text →
      answers 0xA (BitVec.ofNat 32 text.length) ∧
      ∀ j, j ≤ 20 →
        (∀ b, text[j]? = some b → answers (0x10 + j) (b.setWidth 32)) ∧
        (text.length ≤ j → refuses (0x10 + j))) ∧
    (s.resp.ts = none → refuses 0xA ∧ ∀ j, j ≤ 20 → refuses (0x10 + j)) ∧
    (∀ n, (0xB ≤ n ∧ n ≤ 0xF) ∨ 0x24 < n → refuses n)

/-- R30: FLAGS is a read-only view with PKT_VALID in bit 0, REFUSED in bit 1, BUSY in bit 2 and
zeros above; after reset it is 0. -/
def Obligations.FlagsViewsTheThreeFlags : Prop :=
  (∀ s : State, s.flags.getLsbD 0 = s.packet.isSome ∧ s.flags.getLsbD 1 = s.refused ∧
    s.flags.getLsbD 2 = s.busy ∧ ∀ n, 3 ≤ n → s.flags.getLsbD n = false) ∧
  State.reset.flags = 0x00000000#32

/-- RESET is accepted in every state and sets every piece of the core's state to its reset
value (R290); what the host has still to present stays the host's, the model's choice (assumption
log 18). -/
def Obligations.ResetIsAcceptedAtAnyTime : Prop :=
  ∀ s : State, exec .reset s = .next { State.reset with pending := s.pending }

/-- The reset values (the spec's summary "After RESET: LEN = 0, IBUF empty, PKT_VALID = 0 …"). -/
def Obligations.ResetValues : Prop :=
  State.reset.len = 0#32 ∧ (∀ a, Memory.read State.reset.ibuf a = none) ∧
  State.reset.pktValid = false ∧ State.reset.refused = false ∧ State.reset.busy = false ∧
  State.reset.flags = 0#32 ∧ State.reset.packet = none ∧
  State.reset.resp = ⟨none, none, none, none, none, none, none⟩

/-- A command with OP 0x0, 0xE or 0xF is refused and changes nothing but the response registers
and REFUSED (R85). -/
def Obligations.ReservedOpsAreRefused : Prop :=
  ∀ s : State, s.busy = false → ∀ cw ∈ [0x0#32, 0xE#32, 0xF#32], ∀ a b f rest,
    step { s with pending := .command ⟨cw, a, b, f⟩ :: rest } = .next { s with
      pending := rest, refused := true
      resp := ⟨some 0xF#4, none, none, none, none, none, none⟩ } ∧
    ∀ i ∈ [Instr.reservedOp0, .reservedOpE, .reservedOpF], exec i s = .next { s with
      refused := true, resp := ⟨some 0xF#4, none, none, none, none, none, none⟩ }

/-- While BUSY = 1 a command, a LOAD, and a read of anything but LEN and FLAGS is refused and writes
no response register; LEN and FLAGS can be read (R262 causes 7 and 9, R296). That BUSY is looked at
before the command word is the model's reading (assumption log 6), and so is that every other
register number is refused (assumption log 7). -/
def Obligations.BusyTurnsTransactionsAway : Prop :=
  ∀ s : State, s.busy = true →
    (∀ i : Instr, i.isCommand = true → exec i s = .next { s with refused := true }) ∧
    (∀ c rest, step { s with pending := .command c :: rest } = .next { s with
      pending := rest, refused := true }) ∧
    (∀ bytes, exec (.load bytes) s = .next { s with refused := true }) ∧
    (∀ n, n ≠ 0x8 → n ≠ 0x9 → exec (.read n) s = .next { s with refused := true, readPort := none }) ∧
    exec (.read 0x8) s = .next { s with readPort := some s.len } ∧
    exec (.read 0x9) s = .next { s with readPort := some s.flags }

/-- No instruction reads a byte that does not exist (the sentence "no rule reads it" of R22, and R27
for PAY): DECODE and CHECKSUM7 answer a next state wherever the bytes below LEN are in IBUF, the field
reads wherever those below PLEN are in the packet's PAY, and every other instruction everywhere,
whatever else the state holds. -/
def Obligations.InstructionsReadOnlyBytesThatExist : Prop :=
  ∀ s : State,
    let inputExists := ∀ a, a < s.len.toNat → (Memory.read s.ibuf a).isSome = true
    let payloadExists := ∀ p, s.packet = some p → ∀ a, a < p.plen → (Memory.read p.pay a).isSome = true
    let answers := fun (i : Instr) => ∃ t, exec i s = .next t
    (inputExists → answers .decode ∧ ∀ offset length, answers (.checksum7 offset length)) ∧
    (payloadExists → ∀ offset size factor,
      answers (.getRaw offset size) ∧ answers (.getTemperature offset size factor) ∧
      answers (.getTime offset size)) ∧
    ∀ i : Instr, i ≠ .decode → (∀ offset length, i ≠ .checksum7 offset length) →
      (∀ offset size, i ≠ .getRaw offset size) →
      (∀ offset size factor, i ≠ .getTemperature offset size factor) →
      (∀ offset size, i ≠ .getTime offset size) → answers i

/-! ### What every step keeps -/

/-- What a step leaves in the response registers does not depend on what an earlier command left
there: an accepted command replaces all of them (R29). -/
def Obligations.CommandsReplaceEveryResponseRegister : Prop :=
  ∀ (i : Instr) (s t : State) (r : Response), i.isCommand = true → s.busy = false →
    exec i s = .next t → exec i { s with resp := r } = .next t

/-- REFUSED is sticky: a step from a state with REFUSED = 1 keeps it unless the transaction taken is
RESET (R24). -/
def Obligations.OnlyResetClearsRefused : Prop :=
  ∀ s t : State, step s = .next t → s.refused = true → t.refused = false →
    ∃ rest, s.pending = .reset :: rest

/-- The held packet changes only when the transaction taken is a DECODE or RESET (R28). -/
def Obligations.OnlyDecodeAndResetChangeThePacket : Prop :=
  ∀ s t : State, step s = .next t → t.packet ≠ s.packet →
    ∃ tr rest, s.pending = tr :: rest ∧ (decode tr = .ok .decode ∨ tr = .reset)

/-- Every step keeps: IBUF holds exactly the LEN bytes 0..LEN-1 in canonical form, LEN at most
BUF_CAP. -/
def Obligations.StepKeepsTheInputBuffer : Prop :=
  ∀ s t : State, s.inputInv → step s = .next t → t.inputInv

/-- Every step keeps: a held packet is legal (the legal values of R26, PAY of R27, and the header
invariant of R129). -/
def Obligations.StepKeepsPacketsLegal : Prop :=
  ∀ s t : State, s.packetInv → step s = .next t → t.packetInv

/-- Every step keeps: ST is a code of R260, each response register holds a value exactly when R29
says so for ST, TS is 5 to 21 bytes long, and a response Refused has REFUSED = 1. -/
def Obligations.StepKeepsResponsesLegal : Prop :=
  ∀ s t : State, s.responseInv → step s = .next t → t.responseInv

/-- After reset, the invariant of every run holds. -/
def Obligations.ResetSatisfiesTheInvariant : Prop := State.reset.Inv

/-- From every state of the invariant a step answers a next state of the invariant: no transaction
stops the core, and BUSY reads 0 whenever the host can observe it. -/
def Obligations.StepAlwaysAnswersFromTheInvariant : Prop :=
  ∀ s : State, s.Inv → ∃ t, step s = .next t ∧ t.Inv

/-- Whatever the host presents after reset, the core takes it all, one transaction a step in the
host's order, and never stops (R60, R301). That the transactions stand in the list `pending`, a step
taking its first, and that RESET keeps what is left of it, is the model's choice (assumption log 1
and 18, DESIGN CHOICE). -/
def Obligations.EveryHostScriptRunsToItsEnd : Prop :=
  ∀ ts : List Transaction, ∃ t : State,
    Sys2Proof.core.run ts.length (State.reset.withPending ts) = .next t ∧
    t.pending = [] ∧ t.Inv ∧
    ∀ k, k ≤ ts.length → ∃ u : State,
      Sys2Proof.core.run k (State.reset.withPending ts) = .next u ∧ u.pending = ts.drop k
end

