-- ==== Sys2Proof/Laws/Float64.lean ====
section
/-! SUPPORT. The laws of binary64 patterns: what packing a sign and a magnitude gives, how a pattern
with a known sign and magnitude reads, and that a larger magnitude is a larger value (R14, G4). -/

namespace Sys2Proof.Machine

theorem unitsPerOne_pos : 0 < unitsPerOne := by decide +kernel

theorem infMagnitude_lt : infMagnitude < 2 ^ 63 := by decide

/-- A rounded magnitude fits below the sign bit. -/
theorem roundUnits_le (num den : Nat) : roundUnits num den ≤ infMagnitude := Nat.min_le_right _ _

/-- Packing puts the sign in bit 63 and the magnitude below it. -/
theorem pack64_hasSignMagnitude (neg : Bool) {m : Nat} (h : m < 2 ^ 63) :
    HasSignMagnitude (pack64 neg m) neg m := by
  constructor
  · rw [pack64, BitVec.getLsbD_ofNat]
    cases neg
    · simp [Nat.testBit_lt_two_pow h]
    · show (true && (2 ^ 63 + m).testBit 63) = true
      rw [Nat.testBit_two_pow_add_eq, Nat.testBit_lt_two_pow h]
      rfl
  · rw [pack64, BitVec.toNat_ofNat]
    cases neg <;> simp <;> omega

theorem ofBits_of_lt {v : DWord} {neg : Bool} {m : Nat} (h : HasSignMagnitude v neg m)
    (hm : m < infMagnitude) : Binary64.ofBits v = .finite neg (unitsOfMagnitude m) := by
  rw [Binary64.ofBits, h.1, h.2, if_pos hm]

theorem ofBits_of_eq {v : DWord} {neg : Bool} (h : HasSignMagnitude v neg infMagnitude) :
    Binary64.ofBits v = .infinite neg := by
  rw [Binary64.ofBits, h.1, h.2, if_neg (Nat.lt_irrefl _), if_pos rfl]

theorem ofBits_one64 : Binary64.ofBits one64 = .finite false unitsPerOne := by decide +kernel

/-- The next magnitude is a larger value, across the end of a binade too. -/
theorem unitsOfMagnitude_lt_succ (m : Nat) : unitsOfMagnitude m < unitsOfMagnitude (m + 1) := by
  unfold unitsOfMagnitude
  by_cases h : m < 2 ^ 52
  · rw [if_pos h]
    by_cases h' : m + 1 < 2 ^ 52
    · rw [if_pos h']
      omega
    · have e : m = 2 ^ 52 - 1 := by omega
      subst e
      decide
  · rw [if_neg h, if_neg (by omega)]
    by_cases c : m % 2 ^ 52 = 2 ^ 52 - 1
    · have e1 : (m + 1) % 2 ^ 52 = 0 := by omega
      have e2 : (m + 1) / 2 ^ 52 - 1 = (m / 2 ^ 52 - 1) + 1 := by omega
      rw [e1, e2, c, Nat.pow_succ 2 (m / 2 ^ 52 - 1)]
      have hp := Nat.two_pow_pos (m / 2 ^ 52 - 1)
      generalize 2 ^ (m / 2 ^ 52 - 1) = w at *
      omega
    · have e1 : (m + 1) % 2 ^ 52 = m % 2 ^ 52 + 1 := by omega
      have e2 : (m + 1) / 2 ^ 52 = m / 2 ^ 52 := by omega
      rw [e1, e2]
      exact Nat.mul_lt_mul_of_pos_right (by omega) (Nat.two_pow_pos _)

theorem unitsOfMagnitude_strictMono : StrictMono unitsOfMagnitude :=
  strictMono_nat_of_lt_succ unitsOfMagnitude_lt_succ

end Sys2Proof.Machine
end

