-- ==== Sys2Proof/Laws/Memory.lean ====
section
/-! SUPPORT. The laws of byte buffers: read after write, the canonical form kept by every
operation, and what a range read answers. -/

namespace Sys2Proof.Machine

@[simp] theorem Memory.read_nil (a : Nat) : Memory.read [] a = none := rfl

theorem Memory.read_write_same (m : Memory) (a : Nat) (b : Byte) :
    Memory.read (Memory.write m a b) a = some b := by
  induction m with
  | nil => simp [Memory.write, Memory.read]
  | cons c m ih =>
    simp only [Memory.write]
    split
    · simp [Memory.read]
    · split
      · simp [Memory.read]
      · rename_i _ h
        simp [Memory.read, Ne.symm h, ih]

theorem Memory.read_write_other (m : Memory) {a x : Nat} (b : Byte) (h : x ≠ a) :
    Memory.read (Memory.write m a b) x = Memory.read m x := by
  induction m with
  | nil => simp [Memory.write, Memory.read, Ne.symm h]
  | cons c m ih =>
    simp only [Memory.write]
    split
    · simp [Memory.read, Ne.symm h]
    · split
      · rename_i hc
        subst hc
        simp [Memory.read, Ne.symm h]
      · simp only [Memory.read, ih]

theorem Memory.read_write (m : Memory) (a x : Nat) (b : Byte) :
    Memory.read (Memory.write m a b) x = if x = a then some b else Memory.read m x := by
  split
  · rename_i h
    rw [h, Memory.read_write_same]
  · rename_i h
    exact Memory.read_write_other m b h

theorem Memory.mem_write {m : Memory} {a : Nat} {b : Byte} {c : Host.Cell}
    (h : c ∈ Memory.write m a b) : c = (a, b) ∨ c ∈ m := by
  induction m with
  | nil => simpa [Memory.write] using h
  | cons d m ih =>
    simp only [Memory.write] at h
    split at h
    · simpa using h
    · split at h
      · simp only [List.mem_cons] at h ⊢
        tauto
      · simp only [List.mem_cons] at h ⊢
        rcases h with h | h
        · exact .inr (.inl h)
        · rcases ih h with h | h
          · exact .inl h
          · exact .inr (.inr h)

/-- A write keeps the canonical form. -/
theorem Memory.wf_write {m : Memory} (h : m.wf) (a : Nat) (b : Byte) : (Memory.write m a b).wf := by
  induction m with
  | nil => simp [Memory.write, Memory.wf]
  | cons c m ih =>
    have hc := List.pairwise_cons.1 h
    simp only [Memory.write]
    split
    · rename_i ha
      refine List.pairwise_cons.2 ⟨fun d hd => ?_, h⟩
      rcases List.mem_cons.1 hd with rfl | hd
      · exact ha
      · exact Nat.lt_trans ha (hc.1 d hd)
    · split
      · rename_i ha
        exact List.pairwise_cons.2 ⟨fun d hd => by simpa [ha] using hc.1 d hd, hc.2⟩
      · refine List.pairwise_cons.2 ⟨fun d hd => ?_, ih hc.2⟩
        rcases Memory.mem_write hd with rfl | hd
        · simp only
          omega
        · exact hc.1 d hd

/-- A range write keeps the canonical form. -/
theorem Memory.wf_writeRange {m : Memory} (h : m.wf) (a : Nat) (bs : List Byte) :
    (Memory.writeRange m a bs).wf := by
  induction bs generalizing m a with
  | nil => exact h
  | cons b bs ih => exact ih (Memory.wf_write h a b) (a + 1)

/-- Everything a range write does: the bytes written inside the range, the old bytes outside. -/
theorem Memory.read_writeRange (m : Memory) (a x : Nat) (bs : List Byte) :
    Memory.read (Memory.writeRange m a bs) x =
      if a ≤ x ∧ x < a + bs.length then bs[x - a]? else Memory.read m x := by
  induction bs generalizing m a with
  | nil =>
    simp [Memory.writeRange]
  | cons b bs ih =>
    rw [Memory.writeRange, ih, Memory.read_write]
    by_cases hx : x = a
    · subst hx
      simp
    · by_cases h : a + 1 ≤ x ∧ x < a + 1 + bs.length
      · have h' : a ≤ x ∧ x < a + (b :: bs).length := by simp only [List.length_cons]; omega
        have : x - a = (x - (a + 1)) + 1 := by omega
        rw [if_pos h, if_pos h', this, List.getElem?_cons_succ]
      · have h' : ¬ (a ≤ x ∧ x < a + (b :: bs).length) := by simp only [List.length_cons]; omega
        simp only [h, h', hx, if_false]

/-- Byte `a` of a loaded buffer is byte `a` of the sequence (R55). -/
theorem Memory.read_ofBytes (bytes : List Byte) (a : Nat) :
    Memory.read (Memory.ofBytes bytes) a = bytes[a]? := by
  rw [Memory.ofBytes, Memory.read_writeRange]
  by_cases h : a < bytes.length
  · simp [h]
  · simp [h]

theorem Memory.wf_ofBytes (bytes : List Byte) : (Memory.ofBytes bytes).wf :=
  Memory.wf_writeRange List.Pairwise.nil 0 bytes

theorem Memory.holds_nil : Memory.holds [] 0 :=
  ⟨List.Pairwise.nil, fun a => by simp⟩

/-- A loaded buffer holds exactly its bytes. -/
theorem Memory.holds_ofBytes (bytes : List Byte) :
    Memory.holds (Memory.ofBytes bytes) bytes.length :=
  ⟨Memory.wf_ofBytes bytes, fun a => by rw [Memory.read_ofBytes]; simp⟩

/-- Appending bytes at the end of a buffer extends it by them. -/
theorem Memory.holds_writeRange {m : Memory} {n : Nat} (h : Memory.holds m n) (bs : List Byte) :
    Memory.holds (Memory.writeRange m n bs) (n + bs.length) := by
  refine ⟨Memory.wf_writeRange h.1 n bs, fun a => ?_⟩
  rw [Memory.read_writeRange]
  split
  · rename_i ha
    have : a - n < bs.length := by omega
    simp [this, ha.2]
  · rename_i ha
    rw [h.2 a]
    omega

/-- Everything a range read answers: the bytes there, in order. -/
theorem Memory.readRange_eq_some {m : Memory} {a n : Nat} {bs : List Byte} :
    Memory.readRange m a n = some bs ↔
      bs.length = n ∧ ∀ k, k < n → Memory.read m (a + k) = bs[k]? := by
  induction n generalizing a bs with
  | zero =>
    constructor
    · intro h
      simp only [Memory.readRange, Option.some.injEq] at h
      subst h
      exact ⟨rfl, fun k hk => absurd hk (by omega)⟩
    · intro h
      simp [Memory.readRange, List.length_eq_zero_iff.1 h.1]
  | succ n ih =>
    constructor
    · intro h
      simp only [Memory.readRange] at h
      split at h
      · rename_i b bs' hb hbs
        simp only [Option.some.injEq] at h
        subst h
        obtain ⟨hl, hk⟩ := ih.1 hbs
        refine ⟨by simp [hl], fun k hkn => ?_⟩
        cases k with
        | zero => simpa using hb
        | succ k =>
          have := hk k (by omega)
          rw [show a + (k + 1) = a + 1 + k by omega, this]
          simp
      · cases h
    · intro ⟨hl, hk⟩
      cases bs with
      | nil => simp at hl
      | cons b bs =>
        have h0 := hk 0 (by omega)
        have hrest : Memory.readRange m (a + 1) n = some bs :=
          ih.2 ⟨by simpa using hl, fun k hkn => by
            have := hk (k + 1) (by omega)
            rw [show a + 1 + k = a + (k + 1) by omega, this]
            simp⟩
        have h0' : Memory.read m a = some b := by simpa using h0
        simp [Memory.readRange, hrest, h0']

theorem Memory.length_readRange {m : Memory} {a n : Nat} {bs : List Byte}
    (h : Memory.readRange m a n = some bs) : bs.length = n :=
  (Memory.readRange_eq_some.1 h).1

/-- A range inside a buffer can be read. -/
theorem Memory.readRange_of_holds {m : Memory} {n : Nat} (h : Memory.holds m n) {a k : Nat}
    (hk : a + k ≤ n) : ∃ bs, Memory.readRange m a k = some bs := by
  induction k generalizing a with
  | zero => exact ⟨[], rfl⟩
  | succ k ih =>
    obtain ⟨bs, hbs⟩ := ih (a := a + 1) (by omega)
    obtain ⟨b, hb⟩ := Option.isSome_iff_exists.1 ((h.2 a).2 (by omega))
    exact ⟨b :: bs, by simp [Memory.readRange, hb, hbs]⟩

/-- What was loaded is what a read of the whole buffer gives (R63). -/
theorem Memory.readRange_ofBytes (bytes : List Byte) :
    Memory.readRange (Memory.ofBytes bytes) 0 bytes.length = some bytes :=
  Memory.readRange_eq_some.2 ⟨rfl, fun k _ => by simp [Memory.read_ofBytes]⟩

theorem Memory.read_eq_none_of_lt {m : Memory} {a : Nat} (h : ∀ c ∈ m, a < c.1) :
    Memory.read m a = none := by
  induction m with
  | nil => rfl
  | cons c m ih =>
    have hc : c.1 ≠ a := by have := h c (by simp); omega
    simp [Memory.read, hc, ih (fun d hd => h d (by simp [hd]))]

/-- Canonical buffers that read alike are equal: equal buffers are equal data. -/
theorem Memory.ext_of_wf {m m' : Memory} (h : m.wf) (h' : m'.wf)
    (hr : ∀ a, Memory.read m a = Memory.read m' a) : m = m' := by
  induction m generalizing m' with
  | nil =>
    cases m' with
    | nil => rfl
    | cons c m' => have := hr c.1; simp [Memory.read] at this
  | cons c m ih =>
    cases m' with
    | nil => have := hr c.1; simp [Memory.read] at this
    | cons d m' =>
      have hc := List.pairwise_cons.1 h
      have hd := List.pairwise_cons.1 h'
      have key : c.1 = d.1 := by
        rcases Nat.lt_trichotomy c.1 d.1 with hlt | heq | hgt
        · have h1 := hr c.1
          have h2 : Memory.read (d :: m') c.1 = none :=
            Memory.read_eq_none_of_lt (fun e he => by
              rcases List.mem_cons.1 he with rfl | he
              · exact hlt
              · exact Nat.lt_trans hlt (hd.1 e he))
          rw [h2] at h1
          simp [Memory.read] at h1
        · exact heq
        · have h1 := hr d.1
          have h2 : Memory.read (c :: m) d.1 = none :=
            Memory.read_eq_none_of_lt (fun e he => by
              rcases List.mem_cons.1 he with rfl | he
              · exact hgt
              · exact Nat.lt_trans hgt (hc.1 e he))
          rw [h2] at h1
          simp [Memory.read] at h1
      have hv : c.2 = d.2 := by have := hr c.1; simpa [Memory.read, key] using this
      have hcd : c = d := Prod.ext key hv
      subst hcd
      congr 1
      refine ih hc.2 hd.2 (fun a => ?_)
      have := hr a
      by_cases ha : c.1 = a
      · subst ha
        rw [Memory.read_eq_none_of_lt hc.1, Memory.read_eq_none_of_lt hd.1]
      · simpa [Memory.read, ha] using this

end Sys2Proof.Machine
end

