-- ==== Sys2Proof/Laws/Operands.lean ====
section
/-! SUPPORT. The laws of operand assembly: little-endian words and their bytes (20_memory.md R52). -/

namespace Sys2Proof.Machine

/-- A u16 is its low byte plus 256 times its high byte (R74). -/
theorem toNat_le16 (lo hi : Byte) : (le16 lo hi).toNat = lo.toNat + 256 * hi.toNat := by
  have h := lo.isLt
  rw [le16, BitVec.toNat_append, ← Nat.shiftLeft_add_eq_or_of_lt h, Nat.shiftLeft_eq]
  omega

theorem lowByte_le16 (lo hi : Byte) : lowByte (le16 lo hi) = lo := by
  apply BitVec.eq_of_toNat_eq
  have h := lo.isLt
  rw [lowByte, BitVec.extractLsb'_toNat, toNat_le16, Nat.shiftRight_zero]
  omega

theorem highByte_le16 (lo hi : Byte) : highByte (le16 lo hi) = hi := by
  apply BitVec.eq_of_toNat_eq
  have h := lo.isLt
  have h' := hi.isLt
  rw [highByte, BitVec.extractLsb'_toNat, toNat_le16, Nat.shiftRight_eq_div_pow]
  omega

/-- `n` bytes read below `256^n` (R223). -/
theorem leNat_lt (bytes : List Byte) : leNat bytes < 256 ^ bytes.length := by
  induction bytes with
  | nil => simp [leNat]
  | cons b bs ih =>
    have h := b.isLt
    simp only [leNat, List.length_cons, Nat.pow_succ]
    omega

/-- The header bytes the checksum covers, one by one (R106). -/
theorem slice_headerBytes {buf : List Byte} (h : 10 ≤ buf.length) :
    slice buf 1 8 = [byteAt buf 1, byteAt buf 2, byteAt buf 3, byteAt buf 4, byteAt buf 5,
      byteAt buf 6, byteAt buf 7, byteAt buf 8] := by
  match buf, h with
  | _ :: _ :: _ :: _ :: _ :: _ :: _ :: _ :: _ :: _ :: _, _ => simp [slice, byteAt]

end Sys2Proof.Machine
end

