-- ==== Sys2Proof/Laws/State.lean ====
section
/-! SUPPORT. The small lemmas of the state: one per field per update, and the fields of reset. -/

namespace Sys2Proof.Machine

variable (s : State)

@[simp] theorem State.respond_ibuf (r : Response) : (s.respond r).ibuf = s.ibuf := rfl
@[simp] theorem State.respond_len (r : Response) : (s.respond r).len = s.len := rfl
@[simp] theorem State.respond_packet (r : Response) : (s.respond r).packet = s.packet := rfl
@[simp] theorem State.respond_refused (r : Response) : (s.respond r).refused = s.refused := rfl
@[simp] theorem State.respond_busy (r : Response) : (s.respond r).busy = s.busy := rfl
@[simp] theorem State.respond_resp (r : Response) : (s.respond r).resp = r := rfl
@[simp] theorem State.respond_pending (r : Response) : (s.respond r).pending = s.pending := rfl
@[simp] theorem State.respond_readPort (r : Response) : (s.respond r).readPort = s.readPort := rfl

@[simp] theorem State.markRefused_ibuf : (s.markRefused).ibuf = s.ibuf := rfl
@[simp] theorem State.markRefused_len : (s.markRefused).len = s.len := rfl
@[simp] theorem State.markRefused_packet : (s.markRefused).packet = s.packet := rfl
@[simp] theorem State.markRefused_refused : (s.markRefused).refused = true := rfl
@[simp] theorem State.markRefused_busy : (s.markRefused).busy = s.busy := rfl
@[simp] theorem State.markRefused_resp : (s.markRefused).resp = s.resp := rfl
@[simp] theorem State.markRefused_pending : (s.markRefused).pending = s.pending := rfl
@[simp] theorem State.markRefused_readPort : (s.markRefused).readPort = s.readPort := rfl

@[simp] theorem State.withPacket_ibuf (p : Option Packet) : (s.withPacket p).ibuf = s.ibuf := rfl
@[simp] theorem State.withPacket_len (p : Option Packet) : (s.withPacket p).len = s.len := rfl
@[simp] theorem State.withPacket_packet (p : Option Packet) : (s.withPacket p).packet = p := rfl
@[simp] theorem State.withPacket_refused (p : Option Packet) : (s.withPacket p).refused = s.refused := rfl
@[simp] theorem State.withPacket_busy (p : Option Packet) : (s.withPacket p).busy = s.busy := rfl
@[simp] theorem State.withPacket_resp (p : Option Packet) : (s.withPacket p).resp = s.resp := rfl
@[simp] theorem State.withPacket_pending (p : Option Packet) : (s.withPacket p).pending = s.pending := rfl
@[simp] theorem State.withPacket_readPort (p : Option Packet) : (s.withPacket p).readPort = s.readPort := rfl

@[simp] theorem State.withInput_ibuf (m : Memory) (n : Word) : (s.withInput m n).ibuf = m := rfl
@[simp] theorem State.withInput_len (m : Memory) (n : Word) : (s.withInput m n).len = n := rfl
@[simp] theorem State.withInput_packet (m : Memory) (n : Word) : (s.withInput m n).packet = s.packet := rfl
@[simp] theorem State.withInput_refused (m : Memory) (n : Word) : (s.withInput m n).refused = s.refused := rfl
@[simp] theorem State.withInput_busy (m : Memory) (n : Word) : (s.withInput m n).busy = s.busy := rfl
@[simp] theorem State.withInput_resp (m : Memory) (n : Word) : (s.withInput m n).resp = s.resp := rfl
@[simp] theorem State.withInput_pending (m : Memory) (n : Word) : (s.withInput m n).pending = s.pending := rfl
@[simp] theorem State.withInput_readPort (m : Memory) (n : Word) : (s.withInput m n).readPort = s.readPort := rfl

@[simp] theorem State.withReadPort_ibuf (v : Option Word) : (s.withReadPort v).ibuf = s.ibuf := rfl
@[simp] theorem State.withReadPort_len (v : Option Word) : (s.withReadPort v).len = s.len := rfl
@[simp] theorem State.withReadPort_packet (v : Option Word) : (s.withReadPort v).packet = s.packet := rfl
@[simp] theorem State.withReadPort_refused (v : Option Word) : (s.withReadPort v).refused = s.refused := rfl
@[simp] theorem State.withReadPort_busy (v : Option Word) : (s.withReadPort v).busy = s.busy := rfl
@[simp] theorem State.withReadPort_resp (v : Option Word) : (s.withReadPort v).resp = s.resp := rfl
@[simp] theorem State.withReadPort_pending (v : Option Word) : (s.withReadPort v).pending = s.pending := rfl
@[simp] theorem State.withReadPort_readPort (v : Option Word) : (s.withReadPort v).readPort = v := rfl

@[simp] theorem State.withPending_ibuf (ts : List Transaction) : (s.withPending ts).ibuf = s.ibuf := rfl
@[simp] theorem State.withPending_len (ts : List Transaction) : (s.withPending ts).len = s.len := rfl
@[simp] theorem State.withPending_packet (ts : List Transaction) : (s.withPending ts).packet = s.packet := rfl
@[simp] theorem State.withPending_refused (ts : List Transaction) : (s.withPending ts).refused = s.refused := rfl
@[simp] theorem State.withPending_busy (ts : List Transaction) : (s.withPending ts).busy = s.busy := rfl
@[simp] theorem State.withPending_resp (ts : List Transaction) : (s.withPending ts).resp = s.resp := rfl
@[simp] theorem State.withPending_pending (ts : List Transaction) : (s.withPending ts).pending = ts := rfl
@[simp] theorem State.withPending_readPort (ts : List Transaction) : (s.withPending ts).readPort = s.readPort := rfl

@[simp] theorem State.reset_ibuf : State.reset.ibuf = [] := rfl
@[simp] theorem State.reset_len : State.reset.len = 0#32 := rfl
@[simp] theorem State.reset_packet : State.reset.packet = none := rfl
@[simp] theorem State.reset_refused : State.reset.refused = false := rfl
@[simp] theorem State.reset_busy : State.reset.busy = false := rfl
@[simp] theorem State.reset_resp : State.reset.resp = Response.empty := rfl
@[simp] theorem State.reset_pending : State.reset.pending = [] := rfl
@[simp] theorem State.reset_readPort : State.reset.readPort = none := rfl

@[simp] theorem Response.empty_st : Response.empty.st = none := rfl
@[simp] theorem Response.empty_e0 : Response.empty.e0 = none := rfl
@[simp] theorem Response.empty_e1 : Response.empty.e1 = none := rfl
@[simp] theorem Response.empty_e2 : Response.empty.e2 = none := rfl
@[simp] theorem Response.empty_r0 : Response.empty.r0 = none := rfl
@[simp] theorem Response.empty_r1 : Response.empty.r1 = none := rfl
@[simp] theorem Response.empty_ts : Response.empty.ts = none := rfl

@[simp] theorem Response.ok_st (a : DWord) (b : Option DWord) (t : Option (List Byte)) :
    (Response.ok a b t).st = some 0x0#4 := rfl
@[simp] theorem Response.ok_e0 (a : DWord) (b : Option DWord) (t : Option (List Byte)) :
    (Response.ok a b t).e0 = none := rfl
@[simp] theorem Response.ok_e1 (a : DWord) (b : Option DWord) (t : Option (List Byte)) :
    (Response.ok a b t).e1 = none := rfl
@[simp] theorem Response.ok_e2 (a : DWord) (b : Option DWord) (t : Option (List Byte)) :
    (Response.ok a b t).e2 = none := rfl
@[simp] theorem Response.ok_r0 (a : DWord) (b : Option DWord) (t : Option (List Byte)) :
    (Response.ok a b t).r0 = some a := rfl
@[simp] theorem Response.ok_r1 (a : DWord) (b : Option DWord) (t : Option (List Byte)) :
    (Response.ok a b t).r1 = b := rfl
@[simp] theorem Response.ok_ts (a : DWord) (b : Option DWord) (t : Option (List Byte)) :
    (Response.ok a b t).ts = t := rfl

@[simp] theorem Response.status_st (c : BitVec 4) (a b d : Option Word) :
    (Response.status c a b d).st = some c := rfl
@[simp] theorem Response.status_e0 (c : BitVec 4) (a b d : Option Word) :
    (Response.status c a b d).e0 = a := rfl
@[simp] theorem Response.status_e1 (c : BitVec 4) (a b d : Option Word) :
    (Response.status c a b d).e1 = b := rfl
@[simp] theorem Response.status_e2 (c : BitVec 4) (a b d : Option Word) :
    (Response.status c a b d).e2 = d := rfl
@[simp] theorem Response.status_r0 (c : BitVec 4) (a b d : Option Word) :
    (Response.status c a b d).r0 = none := rfl
@[simp] theorem Response.status_r1 (c : BitVec 4) (a b d : Option Word) :
    (Response.status c a b d).r1 = none := rfl
@[simp] theorem Response.status_ts (c : BitVec 4) (a b d : Option Word) :
    (Response.status c a b d).ts = none := rfl

@[simp] theorem State.pktValid_eq : s.pktValid = s.packet.isSome := rfl

@[simp] theorem nextState_next : nextState (.next s) = some s := rfl
@[simp] theorem nextState_fault (f : Fault) : nextState (.fault f) = none := rfl
@[simp] theorem nextState_refused (r : Refusal) : nextState (.refused r) = none := rfl

end Sys2Proof.Machine
end

