-- ==== Sys2Proof/Laws/Ops.lean ====
section
/-! SUPPORT. For each shared operation, once, everything it can do. -/

namespace Sys2Proof.Machine

open Host (Outcome)

@[simp] theorem acceptCommand_idle {s : State} {run : State → StepResult} (h : s.busy = false) :
    acceptCommand s run = run s := by simp [acceptCommand, h]

@[simp] theorem acceptCommand_busy {s : State} {run : State → StepResult} (h : s.busy = true) :
    acceptCommand s run = .next s.markRefused := by simp [acceptCommand, h, refuseTransaction]

/-- A command is refused for BUSY, or runs (R296). -/
theorem acceptCommand_next {s t : State} {run : State → StepResult}
    (h : acceptCommand s run = .next t) :
    (s.busy = true ∧ t = s.markRefused) ∨ (s.busy = false ∧ run s = .next t) := by
  cases hb : s.busy with
  | true =>
    rw [acceptCommand_busy hb] at h
    exact .inl ⟨rfl, (Outcome.next.inj h).symm⟩
  | false => exact .inr ⟨rfl, by rwa [acceptCommand_idle hb] at h⟩

/-- Everything a header accessor can do (R130 to R135). -/
theorem headerRead_next {s t : State} {field : Packet → DWord} (h : headerRead s field = .next t) :
    (s.busy = true ∧ t = s.markRefused) ∨
    (s.busy = false ∧ s.packet = none ∧ t = s.markRefused.respond .refused) ∨
    (s.busy = false ∧ ∃ p, s.packet = some p ∧ t = s.respond (.ok (field p))) := by
  rcases acceptCommand_next h with h | ⟨hb, h⟩
  · exact .inl h
  · cases hp : s.packet with
    | none =>
      simp only [hp, refuseCommand, Outcome.next.injEq] at h
      exact .inr (.inl ⟨hb, rfl, h.symm⟩)
    | some p =>
      simp only [hp, returnOk, Outcome.next.injEq] at h
      exact .inr (.inr ⟨hb, p, rfl, h.symm⟩)

/-- Everything a field read can do when it answers a next state (R224). -/
theorem fieldRead_next {s t : State} {offset size : Word} {admitted : Bool}
    {result : Nat → Response} (h : fieldRead s offset size admitted result = .next t) :
    (s.busy = true ∧ t = s.markRefused) ∨
    (s.busy = false ∧ s.packet = none ∧ t = s.markRefused.respond .refused) ∨
    (s.busy = false ∧ ∃ p, s.packet = some p ∧ p.plen < offset.toNat + size.toNat ∧
      t = s.respond (.ofError (.offsetOutOfRange offset size p.plen))) ∨
    (s.busy = false ∧ ∃ p, s.packet = some p ∧ offset.toNat + size.toNat ≤ p.plen ∧
      admitted = false ∧ t = s.markRefused.respond .refused) ∨
    (s.busy = false ∧ ∃ p bytes, s.packet = some p ∧ offset.toNat + size.toNat ≤ p.plen ∧
      admitted = true ∧ Memory.readRange p.pay offset.toNat size.toNat = some bytes ∧
      t = s.respond (result (leNat bytes))) := by
  rcases acceptCommand_next h with h | ⟨hb, h⟩
  · exact .inl h
  · cases hp : s.packet with
    | none =>
      simp only [hp, refuseCommand, Outcome.next.injEq] at h
      exact .inr (.inl ⟨hb, rfl, h.symm⟩)
    | some p =>
      simp only [hp] at h
      split at h
      · rename_i hr
        simp only [raiseError, Outcome.next.injEq] at h
        exact .inr (.inr (.inl ⟨hb, p, rfl, hr, h.symm⟩))
      · rename_i hr
        have hr' := Nat.le_of_not_lt hr
        cases admitted with
        | false =>
          simp only [Bool.not_false, if_true, refuseCommand, Outcome.next.injEq] at h
          exact .inr (.inr (.inr (.inl ⟨hb, p, rfl, hr', rfl, h.symm⟩)))
        | true =>
          simp only [Bool.not_true, Bool.false_eq_true, if_false] at h
          split at h
          · cases h
          · rename_i bytes hbytes
            simp only [Outcome.next.injEq] at h
            exact .inr (.inr (.inr (.inr ⟨hb, p, bytes, rfl, hr', rfl, hbytes, h.symm⟩)))

/-- A field read inside the payload with admitted operands completes (R224 step 6). -/
theorem fieldRead_completes {s : State} {p : Packet} {offset size : Word} {bytes : List Byte}
    {result : Nat → Response} (hb : s.busy = false) (hp : s.packet = some p)
    (hr : offset.toNat + size.toNat ≤ p.plen)
    (hbytes : Memory.readRange p.pay offset.toNat size.toNat = some bytes) :
    fieldRead s offset size true result = .next (s.respond (result (leNat bytes))) := by
  simp [fieldRead, hb, hp, Nat.not_lt.2 hr, hbytes]

/-- Everything CHECKSUM7 can do when it answers a next state (R105). -/
theorem execChecksum7_next {s t : State} {offset length : Word}
    (h : execChecksum7 offset length s = .next t) :
    (s.busy = true ∧ t = s.markRefused) ∨
    (s.busy = false ∧ s.len.toNat < offset.toNat + length.toNat ∧
      t = s.markRefused.respond .refused) ∨
    (s.busy = false ∧ offset.toNat + length.toNat ≤ s.len.toNat ∧ ∃ bytes,
      Memory.readRange s.ibuf offset.toNat length.toNat = some bytes ∧
      t = s.respond (.ok (BitVec.ofNat 64 (checksumOf bytes)))) := by
  rcases acceptCommand_next h with h | ⟨hb, h⟩
  · exact .inl h
  · split at h
    · rename_i hr
      simp only [refuseCommand, Outcome.next.injEq] at h
      exact .inr (.inl ⟨hb, hr, h.symm⟩)
    · rename_i hr
      split at h
      · cases h
      · rename_i bytes hbytes
        simp only [returnOk, Outcome.next.injEq] at h
        exact .inr (.inr ⟨hb, Nat.le_of_not_lt hr, bytes, hbytes, h.symm⟩)

/-- Everything DECODE can do when it answers a next state (R206, R207). -/
theorem execDecode_next {s t : State} (h : execDecode s = .next t) :
    (s.busy = true ∧ t = s.markRefused) ∨
    (s.busy = false ∧ ∃ buf, Memory.readRange s.ibuf 0 s.len.toNat = some buf ∧
      ((∃ e, decodeTelegram buf = .error e ∧ t = (s.withPacket none).respond (.ofError e)) ∨
       (∃ p, decodeTelegram buf = .ok p ∧
        t = (s.withPacket (some p)).respond (.ok (BitVec.ofNat 64 p.plen))))) := by
  rcases acceptCommand_next h with h | ⟨hb, h⟩
  · exact .inl h
  · split at h
    · cases h
    · rename_i buf hbuf
      refine .inr ⟨hb, buf, hbuf, ?_⟩
      split at h
      · rename_i e he
        simp only [raiseError, Outcome.next.injEq] at h
        exact .inl ⟨e, he, h.symm⟩
      · rename_i p hp
        simp only [returnOk, Outcome.next.injEq] at h
        exact .inr ⟨p, hp, h.symm⟩

/-- Everything LOAD can do (R55). -/
theorem execLoad_next {s t : State} {bytes : List Byte} (h : execLoad bytes s = .next t) :
    (loadAccepted s bytes.length = true ∧
      t = s.withInput (Memory.ofBytes bytes) (BitVec.ofNat 32 bytes.length)) ∨
    (loadAccepted s bytes.length = false ∧ t = s.markRefused) := by
  unfold execLoad at h
  split at h
  · rename_i ha
    exact .inl ⟨ha, (Outcome.next.inj h).symm⟩
  · rename_i ha
    exact .inr ⟨by simpa using ha, (Outcome.next.inj h).symm⟩

/-- The least capacity the spec allows (R9). -/
theorem le_bufCap : 1540 ≤ Config.bufCap := by
  unfold Config.bufCap
  exact Nat.le_add_left 1540 Config.bufCapExtra

/-- A buffer of at most 1540 bytes is taken whenever the core is not busy (R9, R55). -/
theorem loadAccepted_of_le {s : State} {n : Nat} (hb : s.busy = false) (hn : n ≤ 1540) :
    loadAccepted s n = true := by
  have h1 : n ≤ Config.bufCap := Nat.le_trans hn le_bufCap
  have h2 : n < Config.lenBound := by unfold Config.lenBound; omega
  simp [loadAccepted, hb, h1, h2]

/-- Everything READ can do (R31). -/
theorem execRead_next {s t : State} {n : Nat} (h : execRead n s = .next t) :
    (∃ v, s.readAllowed n = true ∧ s.registerValue n = some v ∧ t = s.withReadPort (some v)) ∨
    ((s.readAllowed n = false ∨ s.registerValue n = none) ∧
      t = (s.withReadPort none).markRefused) := by
  unfold execRead at h
  split at h
  · rename_i ha
    split at h
    · rename_i v hv
      exact .inl ⟨v, ha, hv, (Outcome.next.inj h).symm⟩
    · rename_i hv
      exact .inr ⟨.inr hv, (Outcome.next.inj h).symm⟩
  · rename_i ha
    exact .inr ⟨.inl (by simpa using ha), (Outcome.next.inj h).symm⟩

/-- Everything the three stages can answer (R200). -/
theorem decodeTelegram_ok {buf : List Byte} {p : Packet} (h : decodeTelegram buf = .ok p) :
    ∃ hd pay, parseHeader buf = .ok hd ∧ integrityGuard buf = .ok () ∧
      decodeFrames buf hd.fc.toNat = .ok pay ∧ p = hd.toPacket pay := by
  unfold decodeTelegram at h
  split at h
  · cases h
  · rename_i hd hhd
    split at h
    · cases h
    · rename_i hg
      split at h
      · cases h
      · rename_i pay hpay
        exact ⟨hd, pay, hhd, hg, hpay, (Except.ok.inj h).symm⟩

/-- Everything a passed header says (R120 to R127). -/
theorem parseHeader_ok {buf : List Byte} {hd : Header} (h : parseHeader buf = .ok hd) :
    10 ≤ buf.length ∧ byteAt buf 0 = 0xAA#8 ∧ byteAt buf 5 = 0x10#8 ∧
      (byteAt buf 9).toNat = checksum7 buf 1 8 ∧
      buf.length = 10 + 6 * (byteAt buf 8).toNat ∧ hd = headerFields buf := by
  unfold parseHeader at h
  split at h
  · cases h
  · rename_i h1
    split at h
    · cases h
    · split at h
      · cases h
      · rename_i h3
        split at h
        · cases h
        · rename_i h4
          split at h
          · cases h
          · rename_i h5
            split at h
            · cases h
            · rename_i h6
              simp only [not_or, not_not, Config.sync, Config.protoSupported, List.mem_singleton,
                Config.hdrLen, telegramLength, Config.frameLen, Nat.not_lt] at h1 h3 h4 h5 h6
              exact ⟨h4, h1.2, h3, h5.symm, h6, (Except.ok.inj h).symm⟩

/-- The three outcomes of a step (R20): idle, a command word that is no instruction, or the decoded
instruction. -/
theorem step_cases (s : State) :
    (s.pending = [] ∧ step s = .next s) ∨
    (∃ t rest, s.pending = t :: rest ∧
      ((∃ i, decode t = .ok i ∧ step s = exec i (s.withPending rest)) ∨
       (∃ e, decode t = .error e ∧ step s = undecodable e (s.withPending rest)))) := by
  unfold step fetch
  cases hp : s.pending with
  | nil => exact .inl ⟨rfl, rfl⟩
  | cons t rest =>
    refine .inr ⟨t, rest, rfl, ?_⟩
    cases hd : decode t with
    | ok i => exact .inl ⟨i, rfl, by simp [hd]⟩
    | error e => exact .inr ⟨e, rfl, by simp [hd]⟩

end Sys2Proof.Machine
end

