-- ==== Sys2Proof/Laws/PerInstr.lean ====
section
/-! SUPPORT. Facts about each instruction as syntax: a command's word has its reserved bits clear
(30_encoding.md R80, R81). -/

namespace Sys2Proof.Laws

/-- The command word of an encoded instruction, where it has one, is one of the sixteen of R82. -/
def ReservedBitsClear.Statement (i : Instr) : Prop :=
  match encode i with
  | .command c => c.cw.toNat < 16
  | .load _ => True
  | .read _ => True
  | .reset => True

namespace ReservedBitsClear

theorem decode : Statement .decode := show 1 < 16 by decide
theorem getRaw (offset size : Word) : Statement (.getRaw offset size) := show 2 < 16 by decide
theorem getTemperature (offset size : Word) (factor : DWord) :
    Statement (.getTemperature offset size factor) := show 3 < 16 by decide
theorem getTime (offset size : Word) : Statement (.getTime offset size) := show 4 < 16 by decide
theorem checksum7 (offset length : Word) : Statement (.checksum7 offset length) :=
  show 5 < 16 by decide
theorem septetRestore (data : Word) (septet : Byte) : Statement (.septetRestore data septet) :=
  show 6 < 16 by decide
theorem septetEncode (data : Word) : Statement (.septetEncode data) := show 7 < 16 by decide
theorem getDest : Statement .getDest := show 8 < 16 by decide
theorem getSrc : Statement .getSrc := show 9 < 16 by decide
theorem getProto : Statement .getProto := show 10 < 16 by decide
theorem getCmd : Statement .getCmd := show 11 < 16 by decide
theorem getFcnt : Statement .getFcnt := show 12 < 16 by decide
theorem getHchk : Statement .getHchk := show 13 < 16 by decide
theorem reservedOp0 : Statement .reservedOp0 := show 0 < 16 by decide
theorem reservedOpE : Statement .reservedOpE := show 14 < 16 by decide
theorem reservedOpF : Statement .reservedOpF := show 15 < 16 by decide
theorem load (bytes : List Byte) : Statement (.load bytes) := trivial
theorem read (number : Nat) : Statement (.read number) := trivial
theorem reset : Statement .reset := trivial

end ReservedBitsClear

end Sys2Proof.Laws
end

