-- ==== Sys2Proof/Laws/Telegram.lean ====
section
/-! SUPPORT. Everything the guard and the frame decoder can answer (42_integrity_guard.md R150;
44_frame_decoder.md R190), and the frame of the response update. -/

namespace Sys2Proof.Machine

/-- The test of the guard on one byte, as a bound (R154). -/
theorem highBit_clear_iff (b : Byte) : b &&& 0x80#8 = 0 ↔ b.toNat ≤ 0x7F := by
  revert b
  decide

/-- The guard passes exactly when every byte it scans has bit 7 clear. -/
theorem guardFrom_ok {j : Nat} {bs : List Byte} :
    guardFrom j bs = .ok () ↔ ∀ b ∈ bs, b.toNat ≤ 0x7F := by
  induction bs generalizing j with
  | nil => simp [guardFrom]
  | cons b bs ih =>
    simp only [guardFrom, List.forall_mem_cons, ← highBit_clear_iff b]
    split
    · rename_i h
      exact ⟨fun h' => (by cases h'), fun h' => absurd h'.1 h⟩
    · rename_i h
      rw [ih]
      exact ⟨fun h' => ⟨not_not.1 h, h'⟩, fun h' => h'.2⟩

/-- The guard raises exactly for the first byte with bit 7 set, with its offset and value. -/
theorem guardFrom_error {j : Nat} {bs : List Byte} {e : VBusError} :
    guardFrom j bs = .error e ↔
      ∃ before b after, bs = before ++ b :: after ∧ (∀ c ∈ before, c.toNat ≤ 0x7F) ∧
        0x80 ≤ b.toNat ∧ e = .highBitSetError (j + before.length) b := by
  induction bs generalizing j with
  | nil => simp [guardFrom]
  | cons b bs ih =>
    simp only [guardFrom]
    by_cases h : b &&& 0x80#8 = 0
    · have hb := (highBit_clear_iff b).1 h
      simp only [h, ne_eq, not_true_eq_false, if_false, ih]
      constructor
      · rintro ⟨before, c, after, rfl, hbefore, hc, rfl⟩
        refine ⟨b :: before, c, after, rfl, ?_, hc, ?_⟩
        · intro d hd
          rcases List.mem_cons.1 hd with rfl | hd
          · exact hb
          · exact hbefore d hd
        · simp only [List.length_cons]
          congr 1
          omega
      · rintro ⟨before, c, after, heq, hbefore, hc, rfl⟩
        cases before with
        | nil =>
          simp only [List.nil_append, List.cons.injEq] at heq
          rw [← heq.1] at hc
          omega
        | cons d before =>
          simp only [List.cons_append, List.cons.injEq] at heq
          refine ⟨before, c, after, heq.2, fun x hx => hbefore x (List.mem_cons_of_mem _ hx), hc, ?_⟩
          simp only [List.length_cons]
          congr 1
          omega
    · have hb : 0x80 ≤ b.toNat := by
        have := mt (highBit_clear_iff b).2 h
        omega
      simp only [h, ne_eq, not_false_eq_true, if_true, Except.error.injEq]
      constructor
      · rintro rfl
        exact ⟨[], b, bs, rfl, by simp, hb, by simp⟩
      · rintro ⟨before, c, after, heq, hbefore, hc, rfl⟩
        cases before with
        | nil =>
          simp only [List.nil_append, List.cons.injEq] at heq
          simp [heq.1]
        | cons d before =>
          simp only [List.cons_append, List.cons.injEq] at heq
          have := hbefore d (by simp)
          rw [← heq.1] at this
          omega

/-- The checksum of frame `i` is the one it carries (R201). -/
abbrev frameMatches (buf : List Byte) (i : Nat) : Prop :=
  checksum7 buf (frameOffset i) 5 = (byteAt buf (frameOffset i + 5)).toNat

/-- The payload after `n` frames from frame `i` on (R203). -/
def framesWritten (buf : List Byte) : Nat → Nat → Memory → Memory
  | 0, _, p => p
  | n + 1, i, p => framesWritten buf n (i + 1)
      (Memory.writeRange p (payloadOffset i) (restoredFrame buf i).toList)

/-- The frame decoder succeeds exactly when every frame's checksum matches. -/
theorem decodeFramesFrom_ok {buf : List Byte} {n i : Nat} {p q : Memory} :
    decodeFramesFrom buf n i p = .ok q ↔
      (∀ k, k < n → frameMatches buf (i + k)) ∧ q = framesWritten buf n i p := by
  induction n generalizing i p with
  | zero => simp [decodeFramesFrom, framesWritten, eq_comm]
  | succ n ih =>
    have hsplit : (∀ k, k < n + 1 → frameMatches buf (i + k)) ↔
        frameMatches buf i ∧ ∀ k, k < n → frameMatches buf (i + 1 + k) := by
      constructor
      · intro h
        exact ⟨h 0 (by omega), fun k hk => by
          have := h (k + 1) (by omega)
          rwa [show i + (k + 1) = i + 1 + k by omega] at this⟩
      · rintro ⟨h0, h⟩ k hk
        cases k with
        | zero => exact h0
        | succ k =>
          have := h k (by omega)
          rwa [show i + 1 + k = i + (k + 1) by omega] at this
    rw [hsplit]
    simp only [decodeFramesFrom, framesWritten]
    by_cases h : frameMatches buf i
    · have h' : ¬ checksum7 buf (frameOffset i) 5 ≠ (byteAt buf (frameOffset i + 5)).toNat := by
        simpa using h
      rw [if_neg h', ih]
      exact ⟨fun ⟨hk, hq⟩ => ⟨⟨h, hk⟩, hq⟩, fun ⟨⟨_, hk⟩, hq⟩ => ⟨hk, hq⟩⟩
    · have h' : checksum7 buf (frameOffset i) 5 ≠ (byteAt buf (frameOffset i + 5)).toNat := h
      rw [if_pos h']
      exact ⟨fun hq => (by cases hq), fun ⟨⟨hi, _⟩, _⟩ => absurd hi h⟩

/-- The frame decoder raises exactly for the first frame whose checksum differs (R196). -/
theorem decodeFramesFrom_error {buf : List Byte} {n i : Nat} {p : Memory} {e : VBusError} :
    decodeFramesFrom buf n i p = .error e ↔
      ∃ k, k < n ∧ (∀ l, l < k → frameMatches buf (i + l)) ∧ ¬ frameMatches buf (i + k) ∧
        e = .frameChecksumMismatch (i + k) (checksum7 buf (frameOffset (i + k)) 5)
          (byteAt buf (frameOffset (i + k) + 5)) := by
  induction n generalizing i p with
  | zero => simp [decodeFramesFrom]
  | succ n ih =>
    simp only [decodeFramesFrom]
    by_cases h : frameMatches buf i
    · have h' : ¬ checksum7 buf (frameOffset i) 5 ≠ (byteAt buf (frameOffset i + 5)).toNat := by
        simpa using h
      rw [if_neg h', ih]
      constructor
      · rintro ⟨k, hk, hl, hne, rfl⟩
        refine ⟨k + 1, by omega, ?_, ?_, ?_⟩
        · intro l hlk
          cases l with
          | zero => exact h
          | succ l =>
            have := hl l (by omega)
            rwa [show i + 1 + l = i + (l + 1) by omega] at this
        · rwa [show i + 1 + k = i + (k + 1) by omega] at hne
        · rw [show i + 1 + k = i + (k + 1) by omega]
      · rintro ⟨k, hk, hl, hne, rfl⟩
        cases k with
        | zero => exact absurd h hne
        | succ k =>
          refine ⟨k, by omega, ?_, ?_, ?_⟩
          · intro l hlk
            have := hl (l + 1) (by omega)
            rwa [show i + (l + 1) = i + 1 + l by omega] at this
          · rwa [show i + (k + 1) = i + 1 + k by omega] at hne
          · rw [show i + (k + 1) = i + 1 + k by omega]
    · have h' : checksum7 buf (frameOffset i) 5 ≠ (byteAt buf (frameOffset i + 5)).toNat := h
      rw [if_pos h']
      simp only [Except.error.injEq]
      constructor
      · rintro rfl
        exact ⟨0, by omega, fun l hl => absurd hl (by omega), h, rfl⟩
      · rintro ⟨k, hk, hl, hne, rfl⟩
        cases k with
        | zero => rfl
        | succ k => exact absurd (hl 0 (by omega)) h

/-- Frame after frame, the payload holds four bytes more (R27, R203). -/
theorem holds_framesWritten {buf : List Byte} {n i : Nat} {p : Memory}
    (h : Memory.holds p (4 * i)) : Memory.holds (framesWritten buf n i p) (4 * (i + n)) := by
  induction n generalizing i p with
  | zero => exact h
  | succ n ih =>
    rw [framesWritten, show i + (n + 1) = i + 1 + n by omega]
    refine ih ?_
    have := Memory.holds_writeRange h (restoredFrame buf i).toList
    exact this

end Sys2Proof.Machine
end

