-- ==== Sys2Proof/Tests/Slice0.lean ====
section
/-! SUPPORT. The model against the spec's own vectors (95_test_vectors.md), and a witness for the
hypotheses of every statement. -/

namespace Sys2Proof.Tests

open Sys2Proof.Machine

/-! ### Well-formedness: each check refuses an ill-formed term -/

/-- R31: 0xB is a reserved number. -/
theorem test_wf_refuses_reserved_register : WellFormed (.read 0xB) = false := by decide

/-- R31: 0x25 is past the last TS byte. -/
theorem test_wf_refuses_register_past_ts : WellFormed (.read 0x25) = false := by decide

/-- R31: 0x24 is the last TS byte. -/
theorem test_wf_admits_last_register : WellFormed (.read 0x24) = true := by decide

/-- R55: a buffer longer than BUF_CAP. -/
theorem test_wf_refuses_load_over_capacity :
    WellFormed (.load (List.replicate (Config.bufCap + 1) 0)) = false := by
  simp [WellFormed, loadFits]

/-- R55: a buffer of 2^32 bytes. -/
theorem test_wf_refuses_load_over_length :
    WellFormed (.load (List.replicate Config.lenBound 0)) = false := by
  simp only [WellFormed, loadFits, List.length_replicate, Nat.lt_irrefl, decide_false,
    Bool.and_false]

/-- R9: 1540 bytes always fit. -/
theorem test_wf_admits_load_1540 (bytes : List Byte) (h : bytes.length = 1540) :
    WellFormed (.load bytes) = true := by
  have h1 : bytes.length ≤ Config.bufCap := by unfold Config.bufCap; omega
  have h2 : bytes.length < Config.lenBound := by unfold Config.lenBound; omega
  simp [WellFormed, loadFits, h1, h2]

/-! ### Decoding: one word for each constructor, written from R80, R82 and R83 as
F[63:0] B[31:0] A[31:0] CW[31:0] -/

theorem test_decode_reserved0 : decodeTableWord 32 0x00000000 = some .reservedOp0 := by decide
theorem test_decode_decode : decodeTableWord 32 0x00000001 = some .decode := by decide
theorem test_decode_getRaw :
    decodeTableWord 160 0x0000000000000000000000040000000600000002 = some (.getRaw 6 4) := by decide
theorem test_decode_getTemperature :
    decodeTableWord 160 0x3FB999999999999A000000020000000000000003 =
      some (.getTemperature 0 2 0x3FB999999999999A) := by decide
theorem test_decode_getTime :
    decodeTableWord 160 0x0000000000000000000000020000000400000004 = some (.getTime 4 2) := by decide
theorem test_decode_checksum7 :
    decodeTableWord 160 0x0000000000000000000000050000000A00000005 = some (.checksum7 10 5) := by decide
theorem test_decode_septetRestore :
    decodeTableWord 160 0x0000000000000000FFFFFF0300007F1C00000006 =
      some (.septetRestore 0x00007F1C 0x03) := by decide
theorem test_decode_septetEncode :
    decodeTableWord 160 0x0000000000000000000000000000FF9C00000007 =
      some (.septetEncode 0x0000FF9C) := by decide
theorem test_decode_getDest : decodeTableWord 32 0x00000008 = some .getDest := by decide
theorem test_decode_getSrc : decodeTableWord 32 0x00000009 = some .getSrc := by decide
theorem test_decode_getProto : decodeTableWord 32 0x0000000A = some .getProto := by decide
theorem test_decode_getCmd : decodeTableWord 32 0x0000000B = some .getCmd := by decide
theorem test_decode_getFcnt : decodeTableWord 32 0x0000000C = some .getFcnt := by decide
theorem test_decode_getHchk : decodeTableWord 32 0x0000000D = some .getHchk := by decide
theorem test_decode_reservedE : decodeTableWord 32 0x0000000E = some .reservedOpE := by decide
theorem test_decode_reservedF : decodeTableWord 32 0x0000000F = some .reservedOpF := by decide

/-- V-REF-3: reserved bit 4 set. -/
theorem test_decode_refuses_bit4 : decodeTableWord 32 0x00000011 = none := by decide

/-- R81: a reserved bit at the top. -/
theorem test_decode_refuses_bit31 : decodeTableWord 32 0x80000001 = none := by decide

theorem test_decode_load : (decode (.load [0xAA])).toOption = some (.load [0xAA]) := by decide
theorem test_decode_read : (decode (.read 9)).toOption = some (.read 9) := by decide
theorem test_decode_reset : (decode .reset).toOption = some .reset := by decide

/-- R82, R85: no two rows of the opcode map share a command word. -/
theorem test_opcodeMap_words_distinct :
    (opcodeMap.map (fun row => row.1)).Pairwise (fun a b => a ≠ b) := by decide

/-- The host's probe: after reset the presented word is the next one run (R85, R262). -/
theorem test_step_runs_presented_word :
    (nextState (step (State.reset.withFetchWord 32 0x0))).map (fun t => (t.resp.st, t.refused)) =
      some (some 0xF#4, true) := by decide

/-! ### States of the vectors -/

/-- A state with a loaded buffer. -/
def loaded (bytes : List Byte) : State :=
  State.reset.withInput (Memory.ofBytes bytes) (BitVec.ofNat 32 bytes.length)

/-- V1, the source's vector. -/
def v1 : List Byte :=
  [0xAA, 0x10, 0x00, 0x21, 0x73, 0x10, 0x00, 0x01, 0x01, 0x49, 0x1C, 0x7F, 0x00, 0x00, 0x03, 0x61]

/-- V2, two frames. -/
def v2 : List Byte :=
  [0xAA, 0x10, 0x00, 0x21, 0x73, 0x10, 0x00, 0x01, 0x02, 0x48, 0x61, 0x00, 0x5A, 0x00, 0x01, 0x43,
    0x5C, 0x05, 0x7F, 0x7F, 0x05, 0x1B]

/-- V0, header only. -/
def v0 : List Byte := [0xAA, 0x10, 0x00, 0x21, 0x73, 0x10, 0x00, 0x01, 0x00, 0x4A]

/-- A packet with V1's header fields, the given frame count and payload. -/
def packetWith (fcnt : Byte) (pay : List Byte) : Packet :=
  ⟨0x0010, 0x7321, 0x10, 0x0100, fcnt, 0x49, Memory.ofBytes pay⟩

/-- V1's packet (W1). -/
def packet1 : Packet := packetWith 1 [0x9C, 0xFF, 0x00, 0x00]

/-- A state holding V1 and its packet. -/
def holding1 : State := (loaded v1).withPacket (some packet1)

/-- A state holding a two-frame packet with V2's payload. -/
def holding2 : State :=
  State.reset.withPacket (some (packetWith 2 [0xE1, 0x00, 0x5A, 0x00, 0xDC, 0x05, 0xFF, 0x7F]))

/-- The 16-byte payload of V-TIM. -/
def holding16 : State :=
  State.reset.withPacket (some (packetWith 4 [0x5A, 0x00, 0xDC, 0x05, 0xA0, 0x05, 0x00, 0x00,
    0xFF, 0xFF, 0xFF, 0xFF, 0xFF, 0xFF, 0xFF, 0xFF]))

/-- The response registers after an answer. -/
def respOf (r : StepResult) : Option Response := (nextState r).map (fun t => t.resp)

/-! ### DECODE -/

/-- V-DEC-1: V1's packet. -/
theorem test_decode_v1 :
    (nextState (execDecode (loaded v1))).map (fun t => (t.packet, t.resp)) =
      some (some packet1, .ok 4) := by decide +kernel

/-- V-DEC-2: V2's payload length and payload. -/
theorem test_decode_v2 :
    (nextState (execDecode (loaded v2))).map (fun t => (t.packet.map (fun p => p.pay), t.resp.r0)) =
      some (some (Memory.ofBytes [0xE1, 0x00, 0x5A, 0x00, 0xDC, 0x05, 0xFF, 0x7F]), some 8) := by
  decide +kernel

/-- The response of DECODE on each buffer of V-HDR, V-GRD and V-DEC-4 to 7. -/
theorem test_decode_errors :
    [ ([], Response.status 0x1),
      ([0x00], .status 0x1),
      ([0xAA], .status 0x2 (some 1)),
      (v1.take 5, .status 0x2 (some 5)),
      (v1.take 6, .status 0x2 (some 6)),
      (v1.take 9, .status 0x2 (some 9)),
      ([0xAA, 0x10, 0x00, 0x21, 0x73, 0x20], .status 0x3 (some 0x20)),
      (v1.set 5 0x90, .status 0x3 (some 0x90)),
      ([0xAA, 0x10, 0x00, 0x21, 0x73, 0x10, 0x00, 0x01, 0x00, 0x00],
        .status 0x4 (some 0x4A) (some 0x00)),
      (v1.set 9 0xC9, .status 0x4 (some 0x49) (some 0xC9)),
      (v1.set 8 0x02, .status 0x4 (some 0x48) (some 0x49)),
      (v1.take 10, .status 0x5 (some 16) (some 10)),
      (v1 ++ [0x00], .status 0x5 (some 16) (some 17)),
      (v1.take 15, .status 0x5 (some 16) (some 15)),
      (v1.set 8 0x81, .status 0x5 (some 784) (some 16)),
      (v1.set 1 0x90, .status 0x6 (some 1) (some 0x90)),
      (v1.set 15 0x80, .status 0x6 (some 15) (some 0x80)),
      ((v2.set 12 0xDA).set 3 0xA1, .status 0x6 (some 3) (some 0xA1)),
      (v1.set 14 0x83, .status 0x6 (some 14) (some 0x83)),
      (v2.set 21 0x1A, .status 0x7 (some 1) (some 0x1B) (some 0x1A)),
      (v2.set 11 0x01, .status 0x7 (some 0) (some 0x42) (some 0x43)),
      (v1.set 14 0x73, .status 0x7 (some 0) (some 0x71) (some 0x61)) ].all
      (fun row => respOf (execDecode (loaded row.1)) == some row.2) = true := by decide +kernel

/-- V-DEC-3, 8, 9 and 10: the payload length and payload of telegrams that decode. -/
theorem test_decode_payloads :
    [ (v0, []),
      ((v1.set 14 0x73).set 15 0x71, [0x9C, 0xFF, 0x00, 0x00]),
      ((v1.set 10 0x7F).set 11 0x1C, [0xFF, 0x9C, 0x00, 0x00]),
      ((v1.set 10 0x1D).set 11 0x7E, [0x9D, 0xFE, 0x00, 0x00]) ].all
      (fun row => (nextState (execDecode (loaded row.1))).map
          (fun t => t.packet.map (fun p => p.pay)) ==
        some (some (Memory.ofBytes row.2))) = true := by decide +kernel

/-- V-DEC-13: a failing DECODE leaves no packet. -/
theorem test_decode_failure_drops_packet :
    (nextState (execDecode ((loaded (v1.set 15 0x62)).withPacket (some packet1)))).map
      (fun t => t.packet) = some none := by decide +kernel

/-! ### CHECKSUM7 -/

/-- V-CK-10 and V-CK-11. -/
theorem test_checksum7_v1 :
    respOf (execChecksum7 1 8 (loaded v1)) = some (.ok 0x49) ∧
      respOf (execChecksum7 10 5 (loaded v1)) = some (.ok 0x61) := by decide +kernel

/-- V-CK-12, 13 and 16: at the end, past the end, and a sum that does not wrap. -/
theorem test_checksum7_bounds :
    respOf (execChecksum7 16 0 (loaded v1)) = some (.ok 0x7F) ∧
      respOf (execChecksum7 15 2 (loaded v1)) = some .refused ∧
      respOf (execChecksum7 0xFFFFFFFF 2 (loaded v1)) = some .refused := by decide +kernel

/-- V-CK-5, 6, 7 and 9. -/
theorem test_checksumOf :
    checksumOf [0xFF] = 0x00 ∧ checksumOf [0x01, 0x01, 0x00, 0x10, 0x73, 0x21, 0x00, 0x10] = 0x49 ∧
      checksumOf [0x80] = 0x7F ∧ checksumOf (List.replicate 127 0x01) = 0x00 := by decide +kernel

/-! ### Septet codec -/

/-- V-SEP-1, 4, 7 and 8. -/
theorem test_septetRestore :
    respOf (execSeptetRestore 0x00007F1C 0x03 State.reset) = some (.ok 0x0000FF9C) ∧
      respOf (execSeptetRestore 0x7F7F055C 0x05 State.reset) = some (.ok 0x7FFF05DC) ∧
      respOf (execSeptetRestore 0x00007F1C 0xF3 State.reset) = some (.ok 0x0000FF9C) ∧
      respOf (execSeptetRestore 0x0000009C 0x00 State.reset) = some (.ok 0x0000009C) := by decide

/-- V-SEP-2, 9 and 11. -/
theorem test_septetEncode :
    respOf (execSeptetEncode 0x0000FF9C State.reset) = some (.ok 0x7F1C (some 0x03)) ∧
      respOf (execSeptetEncode 0xFFFFFFFF State.reset) = some (.ok 0x7F7F7F7F (some 0x0F)) ∧
      respOf (execSeptetEncode 0x01800180 State.reset) = some (.ok 0x01000100 (some 0x05)) := by
  decide

/-! ### Field reads -/

/-- V-RAW-2, 5, 6, 7 and 8, and W7's sum that does not wrap. -/
theorem test_getRaw_v1 :
    respOf (execGetRaw 0 2 holding1) = some (.ok 0xFF9C) ∧
      respOf (execGetRaw 4 0 holding1) = some (.ok 0) ∧
      respOf (execGetRaw 3 2 holding1) = some (.status 0x8 (some 3) (some 2) (some 4)) ∧
      respOf (execGetRaw 0 9 holding1) = some (.status 0x8 (some 0) (some 9) (some 4)) ∧
      respOf (execGetRaw 0xFFFFFFFF 2 holding1) =
        some (.status 0x8 (some 0xFFFFFFFF) (some 2) (some 4)) := by decide +kernel

/-- V-RAW-14, and size 9 inside a 16-byte payload (R222). -/
theorem test_getRaw_sizes :
    respOf (execGetRaw 0 8 holding2) = some (.ok 0x7FFF05DC005A00E1) ∧
      respOf (execGetRaw 0 9 holding16) = some .refused := by decide +kernel

/-- V-TMP-1 to 10: factor and result on V1's packet. -/
theorem test_getTemperature_v1 :
    [ (0x3FB999999999999A#64, 0xC024000000000000#64),
      (0x3FF0000000000000, 0xC059000000000000),
      (0x3FE0000000000000, 0xC049000000000000),
      (0x4000000000000000, 0xC069000000000000),
      (0x4024000000000000, 0xC08F400000000000),
      (0xBFB999999999999A, 0x4024000000000000),
      (0x3FEFFFFFFFFFFFFF, 0xC058FFFFFFFFFFFE),
      (0x3FF0000000000001, 0xC059000000000002) ].all
      (fun row => respOf (execGetTemperature 0 2 row.1 holding1) == some (.ok row.2)) = true ∧
    respOf (execGetTemperature 2 2 0xBFB999999999999A holding1) = some (.ok 0x8000000000000000) ∧
    [0x0#64, 0x7FF8000000000000, 0x7FF0000000000000, 0x8000000000000000].all
      (fun f => respOf (execGetTemperature 0 2 f holding1) == some .refused) = true ∧
    respOf (execGetTemperature 0 0 Config.defaultFactor holding1) = some .refused := by decide +kernel

/-- V-TMP-16 to 23: offset, size, factor and result on V2's packet. -/
theorem test_getTemperature_v2 :
    [ (0#32, 2#32, Config.defaultFactor, 0x4036800000000000#64),
      (2, 2, Config.defaultFactor, 0x4022000000000000),
      (4, 2, Config.defaultFactor, 0x4062C00000000000),
      (6, 2, Config.defaultFactor, 0x40A9996666666666),
      (0, 1, Config.defaultFactor, 0xC008CCCCCCCCCCCD),
      (0, 8, Config.defaultFactor, 0x43A9996792667866),
      (6, 1, one64, 0xBFF0000000000000),
      (7, 1, one64, 0x405FC00000000000) ].all
      (fun row => respOf (execGetTemperature row.1 row.2.1 row.2.2.1 holding2) ==
        some (.ok row.2.2.2)) = true := by decide +kernel

/-- R229, R231, R232: a conversion that rounds, division against multiplication, a reciprocal that
overflows, and a product that overflows (1e300 is 0x7E37E43C8800759C). -/
theorem test_float_edges :
    floatOfInt (2 ^ 53 + 1) = 0x4340000000000000 ∧ floatOfInt (-2 ^ 63) = 0xC3E0000000000000 ∧
      scale (floatOfInt 3) Config.defaultFactor = 0x3FD3333333333333 ∧
      mul64 (floatOfInt 3) Config.defaultFactor = 0x3FD3333333333334 ∧
      scale (floatOfInt (-5)) 0x1 = 0x8000000000000000 ∧
      scale (floatOfInt (-2 ^ 63)) 0x7E37E43C8800759C = 0xFFF0000000000000 := by decide +kernel

/-- V-TIM-1 to 8: offset, size, hours, minutes and text. -/
theorem test_getTime :
    [ (0#32, 2#32, 1#64, 30#64, "01:30"),
      (2, 2, 25, 0, "25:00"),
      (4, 2, 24, 0, "24:00"),
      (6, 2, 0, 0, "00:00"),
      (0, 0, 0, 0, "00:00"),
      (8, 4, 71582788, 15, "71582788:15"),
      (8, 8, 307445734561825860, 15, "307445734561825860:15") ].all
      (fun row => respOf (execGetTime row.1 row.2.1 holding16) ==
        some (.ok row.2.2.1 (some row.2.2.2.1)
          (some (row.2.2.2.2.toList.map (fun c => BitVec.ofNat 8 c.toNat))))) = true := by
  decide +kernel

/-- V-TIM-9 and 10. -/
theorem test_getTime_stops :
    respOf (execGetTime 15 2 holding16) = some (.status 0x8 (some 15) (some 2) (some 16)) ∧
      respOf (execGetTime 0 9 holding16) = some .refused := by decide +kernel

/-! ### Header accessors (V-ACC) -/

theorem test_accessors :
    [(execGetDest, 0x0010#64), (execGetSrc, 0x7321), (execGetProto, 0x10), (execGetCmd, 0x0100),
      (execGetFcnt, 1), (execGetHchk, 0x49)].all
      (fun row => respOf (row.1 holding1) == some (.ok row.2)) = true := by decide

theorem test_accessor_without_packet :
    (nextState (execGetFcnt (loaded v1))).map (fun t => (t.resp, t.refused)) =
      some (.refused, true) := by decide +kernel

/-! ### LOAD, READ, RESET and the handshake -/

/-- V-REF-8: LEN after a LOAD. -/
theorem test_load_v2 : (nextState (execLoad v2 State.reset)).map (fun t => t.len) = some 22 := by
  have h : loadAccepted State.reset v2.length = true := loadAccepted_of_le rfl (by decide)
  rw [execLoad, if_pos h]
  rfl

/-- V-REF-4, 6 and 7. -/
theorem test_read_after_reset :
    (nextState (execRead 0 State.reset)).map (fun t => (t.readPort, t.refused)) = some (none, true) ∧
      (nextState (execRead 0xB State.reset)).map (fun t => (t.readPort, t.refused)) =
        some (none, true) ∧
      (nextState (execRead 9 State.reset)).map (fun t => (t.readPort, t.refused)) =
        some (some 0, false) := by decide

/-- P3: TS "01:30" at the ports 0xA and 0x10, and V-REF-9. -/
theorem test_read_ts :
    let s := State.reset.respond (.ok 1 (some 30) (some (hhmmText 1 30)))
    [(0xA, some 5#32), (0x10, some 0x30), (0x11, some 0x31), (0x12, some 0x3A), (0x13, some 0x33),
      (0x14, some 0x30), (0x15, none)].all
      (fun row => (nextState (execRead row.1 s)).map (fun t => t.readPort) == some row.2) = true := by
  decide

/-- P1: READ 4 and READ 5 after a temperature of -10.0. -/
theorem test_read_halves :
    let s := State.reset.respond (.ok 0xC024000000000000)
    (nextState (execRead 4 s)).map (fun t => t.readPort) = some (some 0x00000000) ∧
      (nextState (execRead 5 s)).map (fun t => t.readPort) = some (some 0xC0240000) := by decide

/-- R262 cause 9: a command while BUSY = 1 keeps the response registers. -/
theorem test_busy_command :
    nextState (execGetDest { holding1 with busy := true, resp := .ok 7 }) =
      some { holding1 with busy := true, resp := .ok 7, refused := true } := by decide +kernel

/-- R290: RESET while BUSY = 1. -/
theorem test_reset_busy :
    nextState (execReset { holding1 with busy := true, refused := true }) = some State.reset := by
  decide

/-! ### Witnesses: for each statement with hypotheses, states and operands that meet them -/

/-- A loaded buffer is what DECODE reads. -/
theorem readyWith_loaded {bytes : List Byte} (h : bytes.length < 2 ^ 32) :
    (loaded bytes).readyWith bytes := by
  refine ⟨rfl, ?_⟩
  have hl : (BitVec.ofNat 32 bytes.length).toNat = bytes.length := by
    simpa using Nat.mod_eq_of_lt h
  show Memory.readRange (Memory.ofBytes bytes) 0 (BitVec.ofNat 32 bytes.length).toNat = some bytes
  rw [hl, Memory.readRange_ofBytes]

/-- V1 is a telegram the spec's list accepts. -/
theorem accepted_v1 : Accepted v1 where
  start := by decide
  headerChecksum := by decide +kernel
  length := by decide
  highBits := by
    intro j h1 h2
    have h3 : j < 16 := h2
    interval_cases j <;> decide
  frameChecksums := by
    intro i hi
    have h1 : i < 1 := hi
    interval_cases i
    decide +kernel

/-- A telegram the list does not accept: V0 with a wrong header checksum. -/
theorem not_accepted_v0_bad : ¬ Accepted (v0.set 9 0x00) := fun h =>
  absurd h.headerChecksum (by decide +kernel)

theorem readyFor_holding1 : holding1.readyFor packet1 :=
  ⟨rfl, rfl, Memory.holds_ofBytes [0x9C, 0xFF, 0x00, 0x00]⟩

theorem holds_v1 : Memory.holds (loaded v1).ibuf (loaded v1).len.toNat := Memory.holds_ofBytes v1

theorem witness_DecodeOfEncodeIsIdentity :
    encodeWord (.getRaw 0xFFFFFFFF 8) = some 0x000000000000000000000008FFFFFFFF00000002 := by decide

/-- Command words 2, 3, 6, 7 and 15: each clause of the operands, and the last word. -/
theorem witness_DecodedCommandKeepsItsWord :
    (decodeCommand ⟨2, 1, 8, 0⟩).toOption = some (.getRaw 1 8) ∧
      (decodeCommand ⟨3, 1, 8, 5⟩).toOption = some (.getTemperature 1 8 5) ∧
      (decodeCommand ⟨6, 1, 0xFFFFFF03, 0⟩).toOption = some (.septetRestore 1 3) ∧
      (decodeCommand ⟨7, 1, 0, 0⟩).toOption = some (.septetEncode 1) ∧
      (decodeCommand ⟨15, 0, 0, 0⟩).toOption = some .reservedOpF ∧
      (15#32).extractLsb' 4 28 = 0#28 := by decide

/-- Operands that differ where SEPTET_RESTORE (6) and DECODE (1) do not read them. -/
theorem witness_UnreadOperandsAreIgnored :
    (0xFFFFFF03#32).extractLsb' 0 8 = (0x00000003#32).extractLsb' 0 8 ∧
      ¬ (2 ≤ (6#32).toNat ∧ (6#32).toNat ≤ 5) ∧ ¬ (2 ≤ (1#32).toNat ∧ (1#32).toNat ≤ 7) := by decide

theorem witness_ReservedBitsRefuseTheCommand :
    let s := present State.reset (.command ⟨0x11, 0, 0, 0⟩)
    s.pending = .command ⟨0x11, 0, 0, 0⟩ :: [] ∧ s.busy = false ∧
      (0x11#32).extractLsb' 4 28 ≠ 0#28 := by decide

theorem witness_StepRunsTheDecodedTransaction :
    (State.reset.withFetchWord 32 0x1).pending = .command ⟨1, 0, 0, 0⟩ :: [] ∧
      (decode (.command ⟨1, 0, 0, 0⟩)).toOption = some .decode ∧ State.reset.pending = [] := by decide

/-- In range up to the end of the buffer, and one byte past it. -/
theorem witness_Checksum7CommandResult :
    (loaded v1).busy = false ∧ Memory.holds (loaded v1).ibuf (loaded v1).len.toNat ∧
      (15#32).toNat + (1#32).toNat ≤ (loaded v1).len.toNat ∧
      (loaded v1).len.toNat < (16#32).toNat + (1#32).toNat :=
  ⟨rfl, holds_v1, by decide, by decide⟩

theorem witness_ChecksumSubtractsEachByte : 15 + 0 < v1.length := by decide

theorem witness_ChecksumIgnoresOrder : [0x10#8, 0x01#8].Perm [0x01#8, 0x10#8] :=
  List.Perm.swap 0x01 0x10 []

theorem witness_SeptetRestoreThenEncode :
    (Block.ofWord 0x7F7F7F7F).b0.toNat ≤ 0x7F ∧ (Block.ofWord 0x7F7F7F7F).b1.toNat ≤ 0x7F ∧
      (Block.ofWord 0x7F7F7F7F).b2.toNat ≤ 0x7F ∧ (Block.ofWord 0x7F7F7F7F).b3.toNat ≤ 0x7F := by
  decide

/-- For the septet commands, the reserved commands and RESET: a state that is not busy. -/
theorem witness_not_busy : State.reset.busy = false := rfl

theorem witness_HeaderAccessorsReadThePacket :
    holding1.busy = false ∧ holding1.packet = some packet1 := ⟨rfl, rfl⟩

theorem witness_PacketReadsNeedAPacket : State.reset.busy = false ∧ State.reset.packet = none :=
  ⟨rfl, rfl⟩

/-- DECODE of an accepted and of a refused telegram. -/
theorem witness_DecodeSucceedsExactlyWhenAccepted :
    ((loaded v1).readyWith v1 ∧ Accepted v1) ∧
      ((loaded (v0.set 9 0x00)).readyWith (v0.set 9 0x00) ∧ ¬ Accepted (v0.set 9 0x00)) :=
  ⟨⟨readyWith_loaded (by decide), accepted_v1⟩, readyWith_loaded (by decide), not_accepted_v0_bad⟩

/-- One buffer for each step, at the lengths where the steps meet: 0, 5, 6, 9 and 10. -/
theorem witness_HeaderStepsFailInOrder :
    ((loaded []).readyWith [] ∧ (loaded (v1.take 5)).readyWith (v1.take 5) ∧
      (loaded (v1.take 6)).readyWith (v1.take 6) ∧ (loaded (v1.take 9)).readyWith (v1.take 9) ∧
      (loaded (v1.set 5 0x90)).readyWith (v1.set 5 0x90) ∧
      (loaded (v1.take 10)).readyWith (v1.take 10)) ∧
    byteAt (v1.take 5) 0 = 0xAA ∧ byteAt (v1.take 6) 5 = 0x10 ∧
    checksum7 (v0.set 9 0x00) 1 8 ≠ (byteAt (v0.set 9 0x00) 9).toNat ∧
    checksum7 (v1.take 10) 1 8 = (byteAt (v1.take 10) 9).toNat ∧
    (v1.take 10).length ≠ 10 + 6 * (byteAt (v1.take 10) 8).toNat :=
  ⟨⟨readyWith_loaded (by decide), readyWith_loaded (by decide), readyWith_loaded (by decide),
    readyWith_loaded (by decide), readyWith_loaded (by decide), readyWith_loaded (by decide)⟩,
    by decide, by decide, by decide +kernel, by decide +kernel, by decide⟩

/-- The first and the last offset the guard scans. -/
theorem witness_GuardReportsTheLowestOffset :
    (loaded (v1.set 15 0x80)).readyWith (v1.set 15 0x80) ∧
      (parseHeader (v1.set 15 0x80)).toOption = some (headerFields v1) ∧
      0x80 ≤ (byteAt (v1.set 15 0x80) 15).toNat ∧
      (∀ k, 1 ≤ k → k < 15 → (byteAt (v1.set 15 0x80) k).toNat ≤ 0x7F) ∧
      (parseHeader (v1.set 1 0x90)).toOption = some (headerFields (v1.set 1 0x90)) ∧
      0x80 ≤ (byteAt (v1.set 1 0x90) 1).toNat := by
  refine ⟨readyWith_loaded (by decide), by decide +kernel, by decide, ?_, by decide +kernel,
    by decide⟩
  intro k h1 h2
  interval_cases k <;> decide

/-- The second frame of V2 fails and the first does not. -/
theorem witness_FirstFailingFrameAbortsTheDecode :
    let buf := v2.set 21 0x1A
    (loaded buf).readyWith buf ∧ (parseHeader buf).toOption = some (headerFields v2) ∧
      (∀ j, 1 ≤ j → j < buf.length → (byteAt buf j).toNat ≤ 0x7F) ∧
      checksum7 buf (10 + 6 * 1) 5 ≠ (byteAt buf (10 + 6 * 1 + 5)).toNat ∧
      (∀ k, k < 1 → checksum7 buf (10 + 6 * k) 5 = (byteAt buf (10 + 6 * k + 5)).toNat) := by
  refine ⟨readyWith_loaded (by decide), by decide +kernel, ?_, by decide +kernel, ?_⟩
  · intro j h1 h2
    have h3 : j < 22 := h2
    interval_cases j <;> decide
  · intro k hk
    interval_cases k
    decide +kernel

/-- An offset and a value for each row of the corruption table of V1 (R208). -/
theorem witness_SingleByteCorruptionOutcome :
    Accepted v1 ∧ ∀ row ∈ [(0, 0x00#8), (1, 0x11), (7, 0x81), (5, 0x90), (8, 0x02), (8, 0x81),
        (9, 0xC9), (10, 0x80), (10, 0x1D), (14, 0x73), (15, 0x7F), (15, 0xFF)],
      row.1 < v1.length ∧ byteAt v1 row.1 ≠ row.2 ∧
        (loaded (v1.set row.1 row.2)).readyWith (v1.set row.1 row.2) := by
  refine ⟨accepted_v1, fun row hrow => ⟨?_, ?_, readyWith_loaded (by simp [v1])⟩⟩
  · revert row
    decide
  · revert row
    decide

theorem witness_DecodeIsIdempotent : (nextState (exec .decode (loaded v1))).isSome = true := by
  decide +kernel

theorem witness_CommandsNeverWriteTheInputBuffer :
    Instr.isCommand (.getRaw 0 4) = true ∧ (nextState (exec (.getRaw 0 4) holding1)).isSome = true := by
  decide +kernel

/-- The whole payload, the empty read at its end, and one byte past it, with sizes 0, 4, 8 and 9. -/
theorem witness_field_reads :
    holding1.readyFor packet1 ∧
      (0#32).toNat + (4#32).toNat ≤ packet1.plen ∧ (4#32).toNat + (0#32).toNat ≤ packet1.plen ∧
      4 * packet1.fcnt.toNat < (0#32).toNat + (5#32).toNat ∧ (8#32).toNat ≤ 8 ∧ 8 < (9#32).toNat ∧
      factorAdmitted Config.defaultFactor = true ∧ factorAdmitted 0x7FF0000000000000 = false ∧
      Memory.readRange packet1.pay 0 4 = some [0x9C, 0xFF, 0x00, 0x00] :=
  ⟨readyFor_holding1, by decide, by decide, by decide, by decide, by decide, by decide, by decide,
    by decide⟩

/-- A packet whose payload admits the sizes 8 and 9 in range. -/
theorem witness_FieldReadsAdmitSizesAndFactors :
    holding16.packet.map (fun p => (p.plen, p.pay)) =
      some (16, Memory.ofBytes [0x5A, 0x00, 0xDC, 0x05, 0xA0, 0x05, 0x00, 0x00, 0xFF, 0xFF, 0xFF,
        0xFF, 0xFF, 0xFF, 0xFF, 0xFF]) ∧
      (0#32).toNat + (9#32).toNat ≤ 16 := by decide +kernel

theorem witness_SignedReinterpretation :
    2 ^ (8 * 2 - 1) ≤ 0xFF9C ∧ 0xFF9C < 2 ^ (8 * 2) ∧ 0x7FFF < 2 ^ (8 * 2 - 1) := by decide

theorem witness_TimeTextSpellsHoursAndMinutes : 307445734561825860 < 2 ^ 59 ∧ 15 < 60 := by decide

theorem witness_ScaleRuleIsAsymmetric :
    lt64 Config.defaultFactor one64 = true ∧ lt64 one64 0x4000000000000000 = true ∧
      lt64 one64 one64 = false := by decide +kernel

theorem witness_SmallIntegersConvertExactly : ((-2 : Int) ^ 53).natAbs ≤ 2 ^ 53 := by decide

/-- A tie, and the least quotient that rounds to infinity. -/
theorem witness_RoundingIsToNearestEven :
    roundUnits 3 2 = 2 ∧ roundUnits ((2 ^ 54 - 1) * 2 ^ 2044) 1 = infMagnitude ∧
      roundUnits ((2 ^ 54 - 1) * 2 ^ 2044 - 1) 1 < infMagnitude := by decide +kernel

/-- The bounds of the formats: both zeros, the least and the largest subnormal, 1, the largest finite
value, an infinity and a NaN (G4): operands for the clauses of ArithmeticRoundsTheExactResult,
PatternsAreReadByTheirFields, ComparisonOrdersTheExactValues and
InfinitiesAndZerosKeepTheSignOfTheProduct. -/
theorem witness_binary64_operands :
    Binary64.ofBits 0x0 = .finite false 0 ∧
      Binary64.ofBits 0x8000000000000000 = .finite true 0 ∧
      Binary64.ofBits 0x8000000000000001 = .finite true 1 ∧
      Binary64.ofBits 0x000FFFFFFFFFFFFF = .finite false (2 ^ 52 - 1) ∧
      Binary64.ofBits one64 = .finite false unitsPerOne ∧
      Binary64.ofBits 0x7FEFFFFFFFFFFFFF = .finite false ((2 ^ 53 - 1) * 2 ^ 2045) ∧
      Binary64.ofBits 0xFFF0000000000000 = .infinite true ∧
      Binary64.ofBits 0x7FF8000000000000 = .nan := by decide +kernel

/-- Factors at the bounds of the scale rule: 2^-1024, whose reciprocal overflows, the next above it,
the largest below 1, 1, the least above 1, and a negative one; and a product that overflows. -/
theorem witness_ScaleOutcomeForEveryFactor :
    Binary64.ofBits 0x0004000000000000 = .finite false (2 ^ 50) ∧
      Binary64.ofBits 0x0004000000000001 = .finite false (2 ^ 50 + 1) ∧
      Binary64.ofBits 0x3FEFFFFFFFFFFFFF = .finite false (unitsPerOne - 2 ^ 1021) ∧
      Binary64.ofBits 0x3FF0000000000001 = .finite false (unitsPerOne + 2 ^ 1022) ∧
      Binary64.ofBits 0xC000000000000000 = .finite true (2 * unitsPerOne) ∧
      Binary64.ofBits 0x7FE0000000000000 = .finite false (2 ^ 2097) ∧
      Binary64.ofBits 0x4340000000000000 = .finite false (2 ^ 53 * unitsPerOne) ∧
      unitsPerOne * ((2 ^ 54 - 1) * 2 ^ 2044) ≤ 2 ^ 53 * unitsPerOne * 2 ^ 2097 := by decide +kernel

theorem witness_TemperatureIsNeverNaN :
    ((-2 : Int) ^ 63).natAbs ≤ 2 ^ 63 ∧ factorAdmitted 0x0000000000000001 = true := by decide

/-- A buffer that is taken, and one that is refused for its length. -/
theorem witness_LoadDeliversOneBuffer :
    (State.reset.busy = false ∧ v1.length ≤ Config.bufCap ∧ v1.length < 2 ^ 32) ∧
      Config.bufCap < (List.replicate (Config.bufCap + 1) (0 : Byte)).length := by
  refine ⟨⟨rfl, ?_, by decide⟩, ?_⟩
  · show 16 ≤ Config.bufCap
    unfold Config.bufCap
    omega
  · rw [List.length_replicate]
    exact Nat.lt_add_one _

theorem witness_ReadFollowsTheRegisterMap :
    let s := State.reset.respond (.ok 1 (some 30) (some (hhmmText 1 30)))
    s.busy = false ∧ s.resp.r0 = some 1 ∧ s.resp.e0 = none ∧
      s.resp.ts = some [0x30, 0x31, 0x3A, 0x33, 0x30] := by decide

theorem witness_BusyTurnsTransactionsAway : ({ State.reset with busy := true } : State).busy = true :=
  rfl

/-- V1's buffer and packet: every byte below LEN = 16 and PLEN = 4 is there, and none at them. -/
theorem witness_InstructionsReadOnlyBytesThatExist :
    (∀ a, a < holding1.len.toNat → (Memory.read holding1.ibuf a).isSome = true) ∧
      (∀ a, a < packet1.plen → (Memory.read packet1.pay a).isSome = true) ∧
      holding1.packet = some packet1 ∧ holding1.len.toNat = 16 ∧ packet1.plen = 4 ∧
      Memory.read holding1.ibuf 16 = none ∧ Memory.read packet1.pay 4 = none :=
  ⟨fun a h => (holds_v1.2 a).mpr h, fun a h => (readyFor_holding1.2.2.2 a).mpr h, rfl, rfl, rfl,
    by decide, by decide⟩

theorem witness_CommandsReplaceEveryResponseRegister :
    Instr.isCommand .getDest = true ∧ holding1.busy = false ∧
      (nextState (exec .getDest holding1)).isSome = true := by decide

theorem witness_OnlyResetClearsRefused :
    let s := present ({ State.reset with refused := true } : State) .reset
    nextState (step s) = some State.reset ∧ s.refused = true := by decide

theorem witness_OnlyDecodeAndResetChangeThePacket :
    (nextState (step (present holding1 .reset))).map (fun t => t.packet) = some none ∧
      (present holding1 .reset).packet ≠ none := by decide +kernel

/-- A state of the invariant with a buffer and a packet, and a transaction to take. -/
theorem witness_invariant : (present holding1 .reset).Inv where
  busy := rfl
  input := ⟨holds_v1, by
    show 16 ≤ Config.bufCap
    unfold Config.bufCap
    omega⟩
  packet := by
    intro p hp
    have h : packet1 = p := Option.some.inj hp
    subst h
    exact ⟨Memory.holds_ofBytes [0x9C, 0xFF, 0x00, 0x00], by decide, by decide, rfl, by decide,
      by decide, by decide +kernel⟩
  response := by
    refine ⟨⟨?_, ?_, ?_, ?_, ?_, ?_, ?_⟩, ?_⟩ <;> simp [present, holding1, loaded]

theorem witness_StepAlwaysAnswersFromTheInvariant :
    (nextState (step (present holding1 .reset))).isSome = true := by decide +kernel

end Sys2Proof.Tests
end

section
/-! PROOF. The bits of `FLAGS` one by one (10_state.md R30). Every later fact about the view goes
through `State.flags_getLsbD` and not through the concatenation it is built from. -/

namespace Sys2Proof.Machine

/-- Every bit of `FLAGS`: the rightmost part of the concatenation has the lowest number. -/
theorem State.flags_getLsbD (s : State) (n : Nat) :
    s.flags.getLsbD n =
      match n with
      | 0 => s.packet.isSome
      | 1 => s.refused
      | 2 => s.busy
      | _ => false := by
  -- The append lemmas need the width 32 of `Word` as the sum of the widths appended.
  change BitVec.getLsbD (w := 29 + 1 + 1 + 1) (0#29 ++ BitVec.ofBool s.busy ++
    BitVec.ofBool s.refused ++ BitVec.ofBool s.pktValid) n = _
  rw [BitVec.getLsbD_append, BitVec.getLsbD_append, BitVec.getLsbD_append, State.pktValid_eq]
  match n with
  | 0 | 1 | 2 | _ + 3 => simp

theorem State.flags_getLsbD_of_three_le (s : State) {n : Nat} (h : 3 ≤ n) :
    s.flags.getLsbD n = false := by
  obtain ⟨k, rfl⟩ := Nat.exists_eq_add_of_le' h
  exact s.flags_getLsbD (k + 3)

/-- `FLAGS` shows nothing but the three flags: with all of them clear it is zero. -/
theorem State.flags_eq_zero {s : State} (hp : s.packet = none) (hr : s.refused = false)
    (hb : s.busy = false) : s.flags = 0#32 := by
  apply BitVec.eq_of_getLsbD_eq
  intro n _
  rw [State.flags_getLsbD, BitVec.getLsbD_zero]
  match n with
  | 0 => simp [hp]
  | 1 => exact hr
  | 2 => exact hb
  | _ + 3 => rfl

/-- Settles O40: each bit is read off `State.flags_getLsbD`, and reset clears all three flags. -/
theorem flagsViewsTheThreeFlags : Obligations.FlagsViewsTheThreeFlags := by
  unfold Obligations.FlagsViewsTheThreeFlags
  refine ⟨fun s => ⟨?bit0, ?bit1, ?bit2, ?above⟩, ?reset⟩
  case bit0 => exact s.flags_getLsbD 0
  case bit1 => exact s.flags_getLsbD 1
  case bit2 => exact s.flags_getLsbD 2
  case above => exact fun _ h => s.flags_getLsbD_of_three_le h
  case reset => exact State.flags_eq_zero State.reset_packet State.reset_refused State.reset_busy

end Sys2Proof.Machine
end

section
/-! PROOF. What a command may change (20_memory.md R58): every command but DECODE ends in one of the
three states of `CommandAnswer`, and DECODE in one of them after replacing the packet. -/

namespace Sys2Proof.Machine

/-- The ways a command that leaves the packet alone can end: turned away for BUSY (R262 cause 9),
refused (R262 causes 1 to 6), or answered in the response registers (R29). -/
inductive CommandAnswer (s : State) : State → Prop where
  /-- BUSY = 1: only REFUSED is set. -/
  | turnedAway (hbusy : s.busy = true) : CommandAnswer s s.markRefused
  /-- Refused with ST = 0xF. -/
  | refused (hbusy : s.busy = false) : CommandAnswer s (s.markRefused.respond .refused)
  /-- A result or an error. -/
  | responds (hbusy : s.busy = false) (r : Response) : CommandAnswer s (s.respond r)

/-- The fields no command writes (R58 for IBUF and LEN). -/
structure KeepsInput (s t : State) : Prop where
  /-- IBUF -/
  ibuf : t.ibuf = s.ibuf
  /-- LEN -/
  len : t.len = s.len
  /-- BUSY -/
  busy : t.busy = s.busy
  /-- what the host has still to present -/
  pending : t.pending = s.pending
  /-- what the last READ gave -/
  readPort : t.readPort = s.readPort

theorem CommandAnswer.keepsInput {s t : State} (h : CommandAnswer s t) : KeepsInput s t := by
  cases h with
  | turnedAway => constructor <;> simp
  | refused => constructor <;> simp
  | responds => constructor <;> simp

theorem CommandAnswer.packet_eq {s t : State} (h : CommandAnswer s t) : t.packet = s.packet := by
  cases h with
  | turnedAway => exact s.markRefused_packet
  | refused => simp
  | responds _ r => exact s.respond_packet r

theorem acceptCommand_refuseCommand_answer {s t : State}
    (h : acceptCommand s refuseCommand = .next t) : CommandAnswer s t := by
  rcases acceptCommand_next h with ⟨hb, rfl⟩ | ⟨hb, h⟩
  · exact .turnedAway hb
  · cases h
    exact .refused hb

theorem acceptCommand_returnOk_answer {s t : State} {r0 : DWord} {r1 : Option DWord}
    (h : acceptCommand s (fun s => returnOk s r0 r1) = .next t) : CommandAnswer s t := by
  rcases acceptCommand_next h with ⟨hb, rfl⟩ | ⟨hb, h⟩
  · exact .turnedAway hb
  · cases h
    exact .responds hb _

theorem headerRead_answer {s t : State} {field : Packet → DWord}
    (h : headerRead s field = .next t) : CommandAnswer s t := by
  rcases headerRead_next h with ⟨hb, rfl⟩ | ⟨hb, _, rfl⟩ | ⟨hb, p, _, rfl⟩
  · exact .turnedAway hb
  · exact .refused hb
  · exact .responds hb _

theorem fieldRead_answer {s t : State} {offset size : Word} {admitted : Bool}
    {result : Nat → Response} (h : fieldRead s offset size admitted result = .next t) :
    CommandAnswer s t := by
  rcases fieldRead_next h with ⟨hb, rfl⟩ | ⟨hb, _, rfl⟩ | ⟨hb, p, _, _, rfl⟩ |
    ⟨hb, p, _, _, _, rfl⟩ | ⟨hb, p, bytes, _, _, _, _, rfl⟩
  · exact .turnedAway hb
  · exact .refused hb
  · exact .responds hb _
  · exact .refused hb
  · exact .responds hb _

theorem execChecksum7_answer {s t : State} {offset length : Word}
    (h : execChecksum7 offset length s = .next t) : CommandAnswer s t := by
  rcases execChecksum7_next h with ⟨hb, rfl⟩ | ⟨hb, _, rfl⟩ | ⟨hb, _, bytes, _, rfl⟩
  · exact .turnedAway hb
  · exact .refused hb
  · exact .responds hb _

/-- Everything a command but DECODE can do when it answers a next state. -/
theorem exec_command_answer {i : Instr} {s t : State} (hc : i.isCommand = true)
    (hd : i ≠ .decode) (h : exec i s = .next t) : CommandAnswer s t := by
  cases i with
  | decode => exact absurd rfl hd
  | getRaw | getTemperature | getTime =>
    simp only [exec, execGetRaw, execGetTemperature, execGetTime] at h
    exact fieldRead_answer h
  | checksum7 => exact execChecksum7_answer h
  | septetRestore | septetEncode => exact acceptCommand_returnOk_answer h
  | getDest | getSrc | getProto | getCmd | getFcnt | getHchk => exact headerRead_answer h
  | reservedOp0 | reservedOpE | reservedOpF => exact acceptCommand_refuseCommand_answer h
  | load | read | reset => simp [Instr.isCommand] at hc

theorem execDecode_keepsInput {s t : State} (h : execDecode s = .next t) : KeepsInput s t := by
  rcases execDecode_next h with ⟨hb, rfl⟩ | ⟨_, buf, _, ⟨e, _, rfl⟩ | ⟨p, _, rfl⟩⟩
  · exact (CommandAnswer.turnedAway hb).keepsInput
  · constructor <;> simp
  · constructor <;> simp

theorem exec_command_keepsInput {i : Instr} {s t : State} (hc : i.isCommand = true)
    (h : exec i s = .next t) : KeepsInput s t := by
  by_cases hd : i = .decode
  · subst hd
    exact execDecode_keepsInput h
  · exact (exec_command_answer hc hd h).keepsInput

/-- Settles O26: `exec_command_keepsInput` for every command, and `CommandAnswer.packet_eq` for
every command but DECODE. -/
theorem commandsNeverWriteTheInputBuffer : Obligations.CommandsNeverWriteTheInputBuffer := by
  unfold Obligations.CommandsNeverWriteTheInputBuffer
  intro i s t hc h
  obtain ⟨hibuf, hlen, hbusy, hpending, hreadPort⟩ := exec_command_keepsInput hc h
  exact ⟨hibuf, hlen, hbusy, hpending, hreadPort, fun hd => (exec_command_answer hc hd h).packet_eq⟩

end Sys2Proof.Machine
end

section
/-! PROOF. LOAD (20_memory.md R55): exactly when it takes a buffer, and its two outcomes. -/

namespace Sys2Proof.Machine

theorem loadAccepted_iff {s : State} {n : Nat} :
    loadAccepted s n = true ↔ s.busy = false ∧ n ≤ Config.bufCap ∧ n < 2 ^ 32 := by
  simp only [loadAccepted, Bool.and_eq_true, Bool.not_eq_true', decide_eq_true_iff, and_assoc]
  exact Iff.rfl

theorem execLoad_of_accepted {s : State} {bytes : List Byte}
    (h : loadAccepted s bytes.length = true) :
    execLoad bytes s =
      .next (s.withInput (Memory.ofBytes bytes) (BitVec.ofNat 32 bytes.length)) :=
  if_pos h

theorem execLoad_of_not_accepted {s : State} {bytes : List Byte}
    (h : ¬ loadAccepted s bytes.length = true) : execLoad bytes s = .next s.markRefused :=
  if_neg h

/-- Settles O38: the two outcomes of LOAD, with the laws of `Memory.ofBytes` for the buffer it
leaves. LEN does not wrap, since LOAD takes fewer than 2^32 bytes. -/
theorem loadDeliversOneBuffer : Obligations.LoadDeliversOneBuffer := by
  unfold Obligations.LoadDeliversOneBuffer
  intro s bytes
  constructor
  case left =>
    intro htaken
    have hlen : (BitVec.ofNat 32 bytes.length).toNat = bytes.length :=
      by
      obtain ⟨_, _, hbound⟩ := htaken
      rw [BitVec.toNat_ofNat, Nat.mod_eq_of_lt hbound]
    refine ⟨Memory.ofBytes bytes, BitVec.ofNat 32 bytes.length,
      execLoad_of_accepted (loadAccepted_iff.2 htaken), hlen, Memory.wf_ofBytes bytes,
      Memory.read_ofBytes bytes, ?_⟩
    rw [hlen]
    exact Memory.readRange_ofBytes bytes
  case right =>
    intro hrefused
    refine execLoad_of_not_accepted fun haccepted => ?_
    obtain ⟨hbusy, hcap, hbound⟩ := loadAccepted_iff.1 haccepted
    rcases hrefused with hbusy' | hcap' | hbound'
    · exact absurd (hbusy.symm.trans hbusy') Bool.false_ne_true
    · exact Nat.not_lt.2 hcap hcap'
    · exact Nat.not_le.2 hbound hbound'

end Sys2Proof.Machine
end

section
/-! PROOF. What a command's decoding depends on (30_encoding.md R80 to R84): a word with a reserved
bit set is in no row of the opcode map, and a row looks only at the operands R83 says it reads. -/

namespace Sys2Proof

/-- The operands two commands must share for the command word `w` to mean the same (R83, R84). -/
structure AgreeOnOperandsRead (w : Word) (c' c : CommandFields) : Prop where
  /-- A: GET_RAW up to SEPTET_ENCODE -/
  a : 2 ≤ w.toNat ∧ w.toNat ≤ 7 → c'.a = c.a
  /-- B: GET_RAW up to CHECKSUM7 -/
  b : 2 ≤ w.toNat ∧ w.toNat ≤ 5 → c'.b = c.b
  /-- B[7:0]: SEPTET_RESTORE -/
  septet : w = 6#32 → c'.b.extractLsb' 0 8 = c.b.extractLsb' 0 8
  /-- F: GET_TEMPERATURE -/
  f : w = 3#32 → c'.f = c.f

theorem AgreeOnOperandsRead.opcodeMap_row {w : Word} {c' c : CommandFields}
    (h : AgreeOnOperandsRead w c' c) : ∀ row ∈ opcodeMap, row.1 = w → row.2 c' = row.2 c := by
  -- The rows that read no operand give the same instruction outright and are dropped here.
  simp only [opcodeMap, List.forall_mem_cons, List.not_mem_nil, false_implies, implies_true,
    true_and, and_true]
  refine ⟨?getRaw, ?getTemperature, ?getTime, ?checksum7, ?septetRestore, ?septetEncode⟩ <;>
    rintro rfl
  case getRaw | getTime | checksum7 => rw [h.a (by decide), h.b (by decide)]
  case getTemperature => rw [h.a (by decide), h.b (by decide), h.f rfl]
  case septetRestore => rw [h.a (by decide), h.septet rfl]
  case septetEncode => rw [h.a (by decide)]

/-- Two commands with one word find the same row, so they decode alike when that row takes them to
the same instruction. -/
theorem decodeCommand_congr {c' c : CommandFields} (hcw : c'.cw = c.cw)
    (hrow : ∀ row ∈ opcodeMap, row.1 = c.cw → row.2 c' = row.2 c) :
    decodeCommand c' = decodeCommand c := by
  unfold decodeCommand
  rw [hcw]
  cases hfind : opcodeMap.find? (fun row => row.1 == c.cw) with
  | none => rfl
  | some row =>
    have hword : row.1 = c.cw := by simpa using List.find?_some hfind
    exact congrArg Except.ok (hrow row (List.mem_of_find?_eq_some hfind) hword)

theorem opcodeMap_reserved_clear : ∀ row ∈ opcodeMap, row.1.extractLsb' 4 28 = 0#28 := by decide

theorem decodeCommand_of_reserved_set {c : CommandFields} (h : c.cw.extractLsb' 4 28 ≠ 0#28) :
    decodeCommand c = .error .reservedBitsSet := by
  have hnone : opcodeMap.find? (fun row => row.1 == c.cw) = none := by
    rw [List.find?_eq_none]
    intro row hrow hword
    rw [beq_iff_eq] at hword
    exact h (hword ▸ opcodeMap_reserved_clear row hrow)
  rw [decodeCommand, hnone]

end Sys2Proof

namespace Sys2Proof.Machine

theorem step_of_decode_ok {s : State} {t : Transaction} {rest : List Transaction} {i : Instr}
    (hp : s.pending = t :: rest) (hd : decode t = .ok i) :
    step s = exec i (s.withPending rest) := by
  simp only [step, fetch, hp, hd]

theorem step_of_decode_error {s : State} {t : Transaction} {rest : List Transaction}
    {e : DecodeError} (hp : s.pending = t :: rest) (hd : decode t = .error e) :
    step s = undecodable e (s.withPending rest) := by
  simp only [step, fetch, hp, hd]

/-- A step sees of the transaction it takes only what that transaction decodes to (R80). -/
theorem step_congr_decode (s : State) {t' t : Transaction} (rest : List Transaction)
    (h : decode t' = decode t) :
    step { s with pending := t' :: rest } = step { s with pending := t :: rest } := by
  cases hd : decode t with
  | ok i => rw [step_of_decode_ok rfl (h.trans hd), step_of_decode_ok rfl hd]; rfl
  | error e => rw [step_of_decode_error rfl (h.trans hd), step_of_decode_error rfl hd]; rfl

/-- Settles O3: commands that agree on the operands read decode alike, and a step sees no more of
them than that. -/
theorem unreadOperandsAreIgnored : Obligations.UnreadOperandsAreIgnored := by
  unfold Obligations.UnreadOperandsAreIgnored
  intro s cw a b a' b' f f' rest ha hb hseptet hf
  have hagree : AgreeOnOperandsRead cw ⟨cw, a', b', f'⟩ ⟨cw, a, b, f⟩ := ⟨ha, hb, hseptet, hf⟩
  exact step_congr_decode s rest (decodeCommand_congr rfl hagree.opcodeMap_row)

/-- Settles O5: the word is in no row of the opcode map, so an idle core gives the refusal of R262
cause 1. -/
theorem reservedBitsRefuseTheCommand : Obligations.ReservedBitsRefuseTheCommand := by
  unfold Obligations.ReservedBitsRefuseTheCommand
  intro s c rest hp hidle hreserved
  calc step s
      = undecodable .reservedBitsSet (s.withPending rest) :=
        step_of_decode_error hp (decodeCommand_of_reserved_set hreserved)
    _ = refuseCommand (s.withPending rest) := acceptCommand_idle hidle
    _ = _ := rfl

end Sys2Proof.Machine
end

section
/-! PROOF. What the guard reports (42_integrity_guard.md R150, R151), and how DECODE ends when one of
its stages raises (44_frame_decoder.md R200, R206). -/

namespace Sys2Proof.Machine

theorem byteAt_eq_getElem {buf : List Byte} {i : Nat} (h : i < buf.length) :
    byteAt buf i = buf[i] :=
  List.getD_eq_getElem buf 0 h

theorem length_slice (buf : List Byte) (off n : Nat) :
    (slice buf off n).length = min n (buf.length - off) := by
  rw [slice, List.length_take, List.length_drop]

/-- The bytes of a slice are the buffer's bytes at the offsets it covers. -/
theorem mem_slice {buf : List Byte} {off n : Nat} {b : Byte} (h : b ∈ slice buf off n) :
    ∃ k, off ≤ k ∧ k < off + n ∧ b = byteAt buf k := by
  obtain ⟨i, hi, rfl⟩ := List.mem_iff_getElem.1 h
  have hrange : i < min n (buf.length - off) := length_slice buf off n ▸ hi
  refine ⟨off + i, by omega, by omega, ?_⟩
  rw [byteAt_eq_getElem (by omega)]
  simp [slice]

/-- A buffer from offset `off` on, cut at its byte `off + n`. -/
theorem drop_eq_slice_append_byteAt {buf : List Byte} {off n : Nat} (h : off + n < buf.length) :
    buf.drop off = slice buf off n ++ byteAt buf (off + n) :: buf.drop (off + n + 1) := by
  rw [byteAt_eq_getElem h, List.getElem_cons_drop, ← List.drop_drop]
  exact (List.take_append_drop n _).symm

/-- The guard raises for the lowest offset past the sync byte whose byte has bit 7 set (R151): the
bytes it scans before that one are all clear. -/
theorem integrityGuard_eq_error_of_lowest {buf : List Byte} {j : Nat} (hpos : 1 ≤ j)
    (hj : j < buf.length) (hset : 0x80 ≤ (byteAt buf j).toNat)
    (hclear : ∀ k, 1 ≤ k → k < j → (byteAt buf k).toNat ≤ 0x7F) :
    integrityGuard buf = .error (.highBitSetError j (byteAt buf j)) := by
  obtain ⟨n, rfl⟩ := Nat.exists_eq_add_of_le hpos
  have hlen : (slice buf 1 n).length = n := by
    rw [length_slice]
    omega
  refine guardFrom_error.2 ⟨slice buf 1 n, byteAt buf (1 + n), buf.drop (1 + n + 1),
    drop_eq_slice_append_byteAt hj, ?before, hset, by rw [hlen]⟩
  case before =>
    intro c hc
    obtain ⟨k, hk, hkn, rfl⟩ := mem_slice hc
    exact hclear k hk hkn

/-- Behind a passed header the guard's error is the telegram's (R200). -/
theorem decodeTelegram_of_guard_error {buf : List Byte} {h : Header} {e : VBusError}
    (hheader : parseHeader buf = .ok h) (hguard : integrityGuard buf = .error e) :
    decodeTelegram buf = .error e := by
  simp only [decodeTelegram, hheader, hguard]

/-- A DECODE of a telegram that raises drops the packet and answers with the error (R206, R261). -/
theorem exec_decode_of_error {s : State} {buf : List Byte} {e : VBusError}
    (hready : s.readyWith buf) (he : decodeTelegram buf = .error e) :
    exec .decode s = .next ((s.withPacket none).respond (.ofError e)) := by
  obtain ⟨hidle, hbuf⟩ := hready
  simp only [exec, execDecode, acceptCommand_idle hidle, hbuf, he, raiseError]

/-- Settles O22: the guard reports `j`, its error is the telegram's, and DECODE answers with it. -/
theorem guardReportsTheLowestOffset : Obligations.GuardReportsTheLowestOffset := by
  unfold Obligations.GuardReportsTheLowestOffset
  intro s buf h j hready hheader hpos hj hset hclear
  have hguard : integrityGuard buf = .error (.highBitSetError j (byteAt buf j)) :=
    integrityGuard_eq_error_of_lowest hpos hj hset hclear
  exact exec_decode_of_error hready (decodeTelegram_of_guard_error hheader hguard)

end Sys2Proof.Machine
end

section
/-! PROOF. The frame decoder's error (44_frame_decoder.md R190, R193): behind a passed header and a
passed guard, the first frame whose checksum differs ends the decode. -/

namespace Sys2Proof.Machine

/-- The guard passes exactly when every byte after the sync byte has bit 7 clear (R150). -/
theorem integrityGuard_ok {buf : List Byte} :
    integrityGuard buf = .ok () ↔
      ∀ j, 1 ≤ j → j < buf.length → (byteAt buf j).toNat ≤ 0x7F := by
  rw [integrityGuard, guardFrom_ok]
  constructor
  case mp =>
    intro hclear j hpos hj
    obtain ⟨n, rfl⟩ := Nat.exists_eq_add_of_le hpos
    rw [byteAt_eq_getElem hj]
    exact hclear _ (List.mem_drop_iff_getElem.2 ⟨n, by omega, rfl⟩)
  case mpr =>
    intro hclear b hb
    obtain ⟨n, hn, rfl⟩ := List.mem_drop_iff_getElem.1 hb
    have hj : 1 + n < buf.length := by omega
    rw [← byteAt_eq_getElem hj]
    exact hclear (1 + n) (by omega) hj

/-- The frame decoder reports the first frame whose checksum differs; of the frames after it nothing
is asked (R193, R201). -/
theorem decodeFrames_eq_error_of_first {buf : List Byte} {fc i : Nat} (hi : i < fc)
    (hfails : ¬ frameMatches buf i) (hbefore : ∀ k, k < i → frameMatches buf k) :
    decodeFrames buf fc = .error (.frameChecksumMismatch i (checksum7 buf (frameOffset i) 5)
      (byteAt buf (frameOffset i + 5))) := by
  refine decodeFramesFrom_error.2 ⟨i, hi, ?_⟩
  simp only [Nat.zero_add, and_true]
  exact ⟨hbefore, hfails⟩

/-- Behind a passed header and a passed guard the frame decoder's error is the telegram's (R200). -/
theorem decodeTelegram_of_frames_error {buf : List Byte} {h : Header} {e : VBusError}
    (hheader : parseHeader buf = .ok h) (hguard : integrityGuard buf = .ok ())
    (hframes : decodeFrames buf h.fc.toNat = .error e) : decodeTelegram buf = .error e := by
  simp only [decodeTelegram, hheader, hguard, hframes]

/-- Settles O23: the guard passes, the frame decoder reports frame `i`, its error is the telegram's,
and DECODE answers with it. -/
theorem firstFailingFrameAbortsTheDecode : Obligations.FirstFailingFrameAbortsTheDecode := by
  unfold Obligations.FirstFailingFrameAbortsTheDecode
  intro s buf h i hready hheader hclear hi hfails hbefore
  have hguard : integrityGuard buf = .ok () := integrityGuard_ok.2 hclear
  have hframes : decodeFrames buf h.fc.toNat = .error (.frameChecksumMismatch i
      (checksum7 buf (frameOffset i) 5) (byteAt buf (frameOffset i + 5))) :=
    decodeFrames_eq_error_of_first hi hfails hbefore
  exact exec_decode_of_error hready (decodeTelegram_of_frames_error hheader hguard hframes)

end Sys2Proof.Machine
end

section
/-! PROOF. The scale rule (45_field_extractor.md R228): its three branches exclude each other
because the comparison is asymmetric, and the division is not the multiplication (R231). -/

namespace Sys2Proof.Machine

theorem Binary64.lt_asymm {x y : Binary64} (h : x.lt y = true) : y.lt x = false := by
  cases x with
  | nan => simp [Binary64.lt] at h
  | infinite nx =>
    cases y with
    | nan => rfl
    | infinite ny => cases nx <;> cases ny <;> simp [Binary64.lt] at h ⊢
    | finite ny uy => cases nx <;> simp [Binary64.lt] at h ⊢
  | finite nx ux =>
    cases y with
    | nan => rfl
    | infinite ny => cases ny <;> simp [Binary64.lt] at h ⊢
    | finite ny uy =>
      simp only [Binary64.lt, decide_eq_true_eq] at h
      exact decide_eq_false (Int.not_lt.2 (Int.le_of_lt h))

theorem lt64_asymm {x y : DWord} (h : lt64 x y = true) : lt64 y x = false :=
  Binary64.lt_asymm h

theorem scale_of_lt_one {factor : DWord} (x : DWord) (h : lt64 factor one64 = true) :
    scale x factor = div64 x (div64 one64 factor) :=
  if_pos h

theorem scale_of_one_lt {factor : DWord} (x : DWord) (h : lt64 one64 factor = true) :
    scale x factor = mul64 x factor := by
  rw [scale, lt64_asymm h, if_neg Bool.false_ne_true, if_pos h]

theorem scale_of_not_lt {factor : DWord} (x : DWord) (hlo : lt64 factor one64 = false)
    (hhi : lt64 one64 factor = false) : scale x factor = x := by
  rw [scale, hlo, hhi, if_neg Bool.false_ne_true, if_neg Bool.false_ne_true]

/-- The example of R231: 3 scaled by 0.1 is 0.3, by the division. -/
theorem scale_three_default :
    scale (floatOfInt 3) Config.defaultFactor = 0x3FD3333333333333#64 := by
  decide +kernel

/-- The example of R231: 3 times 0.1 is the next value above 0.3. -/
theorem mul64_three_default :
    mul64 (floatOfInt 3) Config.defaultFactor = 0x3FD3333333333334#64 := by
  decide +kernel

/-- Settles O34: the three equations of `scale`, and the two answers of R231 side by side. -/
theorem scaleRuleIsAsymmetric : Obligations.ScaleRuleIsAsymmetric := by
  unfold Obligations.ScaleRuleIsAsymmetric
  refine ⟨fun x _ => ⟨scale_of_lt_one x, scale_of_one_lt x, scale_of_not_lt x⟩, ?asymmetric⟩
  case asymmetric =>
    rw [scale_three_default, mul64_three_default]
    decide

end Sys2Proof.Machine
end

section
/-! PROOF. The two's-complement reading of a field (45_field_extractor.md R226): it is the integer
the library gives the bits, and its range is the library's. -/

namespace Sys2Proof.Machine

theorem signedValue_of_le {raw size : Nat} (h : 2 ^ (8 * size - 1) ≤ raw) :
    signedValue raw size = (raw : Int) - 2 ^ (8 * size) :=
  if_pos h

theorem signedValue_of_lt {raw size : Nat} (h : raw < 2 ^ (8 * size - 1)) :
    signedValue raw size = raw :=
  if_neg (Nat.not_le.2 h)

/-- Any field of at least one byte is read as the library reads its bits. -/
theorem signedValue_eq_toInt {raw size : Nat} (hsize : 1 ≤ size) (hraw : raw < 2 ^ (8 * size)) :
    signedValue raw size = (BitVec.ofNat (8 * size) raw).toInt := by
  have hhalf : 2 * 2 ^ (8 * size - 1) = 2 ^ (8 * size) := mul_pow_sub_one (by omega) 2
  rw [BitVec.toInt_eq_toNat_cond, BitVec.toNat_ofNat, Nat.mod_eq_of_lt hraw]
  rcases Nat.lt_or_ge raw (2 ^ (8 * size - 1)) with h | h
  · rw [signedValue_of_lt h, if_pos (by omega)]
  · rw [signedValue_of_le h, if_neg (by omega)]
    push_cast
    rfl

/-- Settles O33: the two branches of `signedValue`, and the range of the library's reading. -/
theorem signedReinterpretation : Obligations.SignedReinterpretation := by
  unfold Obligations.SignedReinterpretation
  intro raw size hsize _ hraw
  have htoInt := signedValue_eq_toInt hsize hraw
  refine ⟨signedValue_of_le, signedValue_of_lt, ?lower, ?upper, htoInt⟩
  case lower => exact htoInt ▸ BitVec.le_toInt _
  case upper => exact htoInt ▸ Int.le_sub_one_of_lt BitVec.toInt_lt

end Sys2Proof.Machine
end

section
/-! PROOF. The stops of a field read (45_field_extractor.md R221, R222, R224, R227): what the shared
operation `fieldRead` answers out of range, for operands that are not admitted, and in range. The
completed read itself is `fieldRead_completes`. -/

namespace Sys2Proof.Machine

theorem exec_getRaw (offset size : Word) (s : State) :
    exec (.getRaw offset size) s =
      fieldRead s offset size (sizeAdmitted size) (fun raw => .ok (BitVec.ofNat 64 raw)) := rfl

theorem exec_getTemperature (offset size : Word) (factor : DWord) (s : State) :
    exec (.getTemperature offset size factor) s =
      fieldRead s offset size (signedSizeAdmitted size && factorAdmitted factor)
        (fun raw => .ok (scale (floatOfInt (signedValue raw size.toNat)) factor)) := rfl

theorem exec_getTime (offset size : Word) (s : State) :
    exec (.getTime offset size) s =
      fieldRead s offset size (sizeAdmitted size) (fun raw =>
        .ok (BitVec.ofNat 64 (raw / 60)) (some (BitVec.ofNat 64 (raw % 60)))
          (some (hhmmText (raw / 60) (raw % 60)))) := rfl

theorem sizeAdmitted_iff {size : Word} : sizeAdmitted size = true ↔ size.toNat ≤ 8 :=
  decide_eq_true_iff

/-- What GET_TEMPERATURE admits: a size of 1..8 (R222) and a finite nonzero factor (R227). -/
theorem temperatureAdmitted_iff {size : Word} {factor : DWord} :
    (signedSizeAdmitted size && factorAdmitted factor) = true ↔
      1 ≤ size.toNat ∧ size.toNat ≤ 8 ∧
        factor.extractLsb' 52 11 ≠ 0x7FF#11 ∧ factor.extractLsb' 0 63 ≠ 0#63 := by
  simp only [signedSizeAdmitted, factorAdmitted, Bool.and_eq_true, decide_eq_true_iff, bne_iff_ne,
    and_assoc]

variable {s : State} {p : Packet} {offset size : Word} {admitted : Bool} {result : Nat → Response}

theorem fieldRead_of_out_of_range (hidle : s.busy = false) (hp : s.packet = some p)
    (hrange : p.plen < offset.toNat + size.toNat) :
    fieldRead s offset size admitted result =
      .next (s.respond (.ofError (.offsetOutOfRange offset size p.plen))) := by
  simp only [fieldRead, acceptCommand_idle hidle, hp, if_pos hrange, raiseError]

theorem fieldRead_of_not_admitted (hidle : s.busy = false) (hp : s.packet = some p)
    (hrange : offset.toNat + size.toNat ≤ p.plen) (hadmitted : ¬ admitted = true) :
    fieldRead s offset size admitted result = .next (s.markRefused.respond .refused) := by
  have hfalse : admitted = false := Bool.eq_false_iff.2 hadmitted
  simp only [fieldRead, acceptCommand_idle hidle, hp, if_neg (Nat.not_lt.2 hrange), hfalse,
    Bool.not_false, if_true, refuseCommand]

/-- In range a field read answers its result or is refused; it never raises (R221). -/
theorem fieldRead_in_range_st (hidle : s.busy = false) (hp : s.packet = some p)
    (hrange : offset.toNat + size.toNat ≤ p.plen) (hok : ∀ raw, (result raw).st = some 0x0#4)
    {t : State} (h : fieldRead s offset size admitted result = .next t) :
    t.resp.st = some 0x0#4 ∨ t.resp.st = some 0xF#4 := by
  rcases fieldRead_next h with ⟨hbusy, _⟩ | ⟨_, _, rfl⟩ | ⟨_, q, hq, hout, _⟩ |
    ⟨_, _, _, _, _, rfl⟩ | ⟨_, _, bytes, _, _, _, _, rfl⟩
  · exact absurd (hidle.symm.trans hbusy) Bool.false_ne_true
  · exact .inr rfl
  · obtain rfl : p = q := Option.some.inj (hp.symm.trans hq)
    exact absurd hrange (Nat.not_le.2 hout)
  · exact .inr rfl
  · exact .inl (hok (leNat bytes))

/-- An admitted field read in range runs: the bytes it reads are there (R27, R224). -/
theorem fieldRead_runs (hready : s.readyFor p) (hrange : offset.toNat + size.toNat ≤ p.plen)
    (hadmitted : admitted = true) (hok : ∀ raw, (result raw).st = some 0x0#4) :
    ∃ t, fieldRead s offset size admitted result = .next t ∧ t.resp.st = some 0x0#4 ∧
      t.refused = s.refused := by
  obtain ⟨hidle, hp, hpay⟩ := hready
  obtain ⟨bytes, hbytes⟩ := Memory.readRange_of_holds hpay hrange
  subst hadmitted
  exact ⟨_, fieldRead_completes hidle hp hrange hbytes, hok _, rfl⟩

/-- Both halves of R221 for one field read: `OffsetOutOfRange` outside the payload, only there. -/
theorem fieldRead_checks_range (hidle : s.busy = false) (hp : s.packet = some p)
    (hok : ∀ raw, (result raw).st = some 0x0#4) :
    (p.plen < offset.toNat + size.toNat →
      fieldRead s offset size admitted result =
        .next (s.respond (.ofError (.offsetOutOfRange offset size p.plen)))) ∧
    (offset.toNat + size.toNat ≤ p.plen → ∀ t,
      fieldRead s offset size admitted result = .next t → t.resp.st ≠ some 0x8#4) := by
  refine ⟨fieldRead_of_out_of_range hidle hp, fun hrange t h => ?_⟩
  rcases fieldRead_in_range_st hidle hp hrange hok h with hst | hst <;> rw [hst] <;> decide

end Sys2Proof.Machine
end

section
/-! PROOF. The checks of the three field reads (45_field_extractor.md R221, R222, R227). -/

namespace Sys2Proof.Machine

/-- Settles O28: the three reads are one `fieldRead`, whose results all have ST = 0x0. -/
theorem fieldReadsCheckTheRange : Obligations.FieldReadsCheckTheRange := by
  unfold Obligations.FieldReadsCheckTheRange
  intro s p offset size factor hidle hp i hi
  simp only [List.mem_cons, List.not_mem_nil, or_false] at hi
  rcases hi with rfl | rfl | rfl
  · rw [exec_getRaw]
    exact fieldRead_checks_range hidle hp fun _ => Response.ok_st _ _ _
  · rw [exec_getTemperature]
    exact fieldRead_checks_range hidle hp fun _ => Response.ok_st _ _ _
  · rw [exec_getTime]
    exact fieldRead_checks_range hidle hp fun _ => Response.ok_st _ _ _

/-- Settles O29: in range a field read runs when its operands are admitted and is refused when they
are not; `sizeAdmitted_iff` and `temperatureAdmitted_iff` say which are. -/
theorem fieldReadsAdmitSizesAndFactors : Obligations.FieldReadsAdmitSizesAndFactors := by
  unfold Obligations.FieldReadsAdmitSizesAndFactors
  intro s p offset size factor hready hrange
  have ⟨hidle, hp, _⟩ := hready
  simp only [exec_getRaw, exec_getTemperature, exec_getTime]
  refine ⟨fun hsize => ?sizeRuns, fun hsize => ?sizeRefuses, fun h => ?temperatureRuns,
    fun h => ?temperatureRefuses⟩
  case sizeRuns =>
    have hadmitted := sizeAdmitted_iff.2 hsize
    exact ⟨fieldRead_runs hready hrange hadmitted fun _ => Response.ok_st _ _ _,
      fieldRead_runs hready hrange hadmitted fun _ => Response.ok_st _ _ _⟩
  case sizeRefuses =>
    have hrejected := mt sizeAdmitted_iff.1 (Nat.not_le.2 hsize)
    exact ⟨fieldRead_of_not_admitted hidle hp hrange hrejected,
      fieldRead_of_not_admitted hidle hp hrange hrejected⟩
  case temperatureRuns =>
    exact fieldRead_runs hready hrange (temperatureAdmitted_iff.2 h) fun _ => Response.ok_st _ _ _
  case temperatureRefuses =>
    exact fieldRead_of_not_admitted hidle hp hrange (mt temperatureAdmitted_iff.1 h)

end Sys2Proof.Machine
end

section
/-! PROOF. The value a field read assembles (45_field_extractor.md R223, R236): the bytes of the
little-endian integer, and the integer split into hours and minutes. -/

namespace Sys2Proof.Machine

theorem byteAt_eq_zero {buf : List Byte} {i : Nat} (h : buf.length ≤ i) : byteAt buf i = 0#8 :=
  List.getD_eq_default buf 0 h

/-- Byte `k` of a little-endian integer is byte `k` of what it was read from, 0 past the end. -/
theorem leNat_div_mod (bytes : List Byte) (k : Nat) :
    leNat bytes / 256 ^ k % 256 = (byteAt bytes k).toNat := by
  induction bytes generalizing k with
  | nil => simp [leNat, byteAt]
  | cons b bs ih =>
    have hb := b.isLt
    rw [leNat]
    cases k with
    | zero =>
      show _ = b.toNat
      omega
    | succ k =>
      have hshift : (b.toNat + 256 * leNat bs) / 256 = leNat bs := by omega
      rw [Nat.pow_succ', ← Nat.div_div_eq_div_mul, hshift]
      exact ih k

/-- At most 8 bytes make a number of 64 bits (R9 RAW_WIDTH). -/
theorem leNat_lt_two_pow_64 {bytes : List Byte} (h : bytes.length ≤ 8) : leNat bytes < 2 ^ 64 :=
  calc leNat bytes
      < 256 ^ bytes.length := leNat_lt bytes
    _ ≤ 256 ^ 8 := Nat.pow_le_pow_right (by decide) h
    _ = 2 ^ 64 := by decide

/-- Byte `k` of R0 is byte `k` of the field, 0 past its end (R223). -/
theorem extractLsb'_leNat {bytes : List Byte} (h : bytes.length ≤ 8) (k : Nat) :
    (BitVec.ofNat 64 (leNat bytes)).extractLsb' (8 * k) 8 = byteAt bytes k := by
  apply BitVec.eq_of_toNat_eq
  rw [BitVec.extractLsb'_toNat, BitVec.toNat_ofNat, Nat.mod_eq_of_lt (leNat_lt_two_pow_64 h),
    Nat.shiftRight_eq_div_pow, Nat.pow_mul]
  exact leNat_div_mod bytes k

/-- Settles O27: the bytes of R0 are those of the range read, and the range's are the payload's. -/
theorem getRawReadsLittleEndian : Obligations.GetRawReadsLittleEndian := by
  unfold Obligations.GetRawReadsLittleEndian
  intro s p offset size ⟨hidle, hp, hpay⟩ hrange hsize
  obtain ⟨bytes, hbytes⟩ := Memory.readRange_of_holds hpay hrange
  obtain ⟨hlength, hread⟩ := Memory.readRange_eq_some.1 hbytes
  have hlength8 : bytes.length ≤ 8 := hlength ▸ hsize
  refine ⟨BitVec.ofNat 64 (leNat bytes), ?answer, fun k hk => ?inside, fun k hk => ?above⟩
  case answer =>
    rw [exec_getRaw, sizeAdmitted_iff.2 hsize]
    exact fieldRead_completes hidle hp hrange hbytes
  case inside =>
    have hk' : k < bytes.length := hlength ▸ hk
    rw [hread k hk, extractLsb'_leNat hlength8, byteAt_eq_getElem hk', List.getElem?_eq_getElem hk']
  case above => rw [extractLsb'_leNat hlength8, byteAt_eq_zero (hlength ▸ hk)]

/-- Settles O30: hours and minutes of a 64-bit number fit in R0 and R1, so nothing is cut off. -/
theorem getTimeSplitsTheMinutes : Obligations.GetTimeSplitsTheMinutes := by
  unfold Obligations.GetTimeSplitsTheMinutes
  intro s p offset size bytes ⟨hidle, hp, _⟩ hrange hsize hbytes
  have hraw : leNat bytes < 2 ^ 64 :=
    leNat_lt_two_pow_64 (Nat.le_trans (Nat.le_of_eq (Memory.length_readRange hbytes)) hsize)
  have hhours : (BitVec.ofNat 64 (leNat bytes / 60)).toNat = leNat bytes / 60 := by
    rw [BitVec.toNat_ofNat]
    omega
  have hminutes : (BitVec.ofNat 64 (leNat bytes % 60)).toNat = leNat bytes % 60 := by
    rw [BitVec.toNat_ofNat]
    omega
  refine ⟨BitVec.ofNat 64 (leNat bytes / 60), BitVec.ofNat 64 (leNat bytes % 60), ?answer, hhours,
    hminutes, ?fits⟩
  case answer =>
    rw [exec_getTime, sizeAdmitted_iff.2 hsize, hhours, hminutes]
    exact fieldRead_completes hidle hp hrange hbytes
  case fits =>
    rw [hhours]
    omega

end Sys2Proof.Machine
end

section
/-! PROOF. The text of a time (45_field_extractor.md R238). The model's digits are those of the
library's `Nat.digits` written the other way round, so their values, their number and the absence of
a leading zero are the library's. -/

namespace Sys2Proof.Machine

/-- Decimal digits, least significant first, as ASCII text, most significant first. -/
def asciiText (digits : List Nat) : List Byte := (digits.map asciiDigit).reverse

/-- The decimal value of ASCII digits. -/
def decimalValue (text : List Byte) : Nat :=
  text.foldl (fun n d => 10 * n + (d.toNat - 0x30)) 0

/-- The digits of a part of a time, least significant first: at least two (R238). -/
def timeDigits (n : Nat) : List Nat := if n < 10 then [n, 0] else Nat.digits 10 n

theorem toNat_asciiDigit {d : Nat} (h : d < 10) : (asciiDigit d).toNat = 0x30 + d := by
  rw [asciiDigit, BitVec.toNat_ofNat]
  omega

@[simp] theorem length_asciiText (digits : List Nat) :
    (asciiText digits).length = digits.length := by
  simp [asciiText]

theorem asciiText_cons (d : Nat) (digits : List Nat) :
    asciiText (d :: digits) = asciiText digits ++ [asciiDigit d] := by
  simp [asciiText]

theorem toNat_of_mem_asciiText {digits : List Nat} (h : ∀ d ∈ digits, d < 10) {b : Byte}
    (hb : b ∈ asciiText digits) : 0x30 ≤ b.toNat ∧ b.toNat ≤ 0x39 := by
  rw [asciiText, List.mem_reverse, List.mem_map] at hb
  obtain ⟨d, hd, rfl⟩ := hb
  have hlt := h d hd
  rw [toNat_asciiDigit hlt]
  omega

theorem decimalValue_asciiText {digits : List Nat} (h : ∀ d ∈ digits, d < 10) :
    decimalValue (asciiText digits) = Nat.ofDigits 10 digits := by
  induction digits with
  | nil => rfl
  | cons d digits ih =>
    obtain ⟨hd, hrest⟩ := List.forall_mem_cons.1 h
    have hvalue := ih hrest
    rw [decimalValue] at hvalue
    rw [asciiText_cons, decimalValue, List.foldl_append, hvalue, List.foldl_cons, List.foldl_nil,
      toNat_asciiDigit hd, Nat.ofDigits_cons]
    omega

/-- The model's digits are the library's, as long as the fuel holds all of them. -/
theorem decimalDigits_eq {fuel n : Nat} (hpos : 0 < n) (hfuel : n < 10 ^ fuel) :
    decimalDigits fuel n = asciiText (Nat.digits 10 n) := by
  induction fuel generalizing n with
  | zero => omega
  | succ fuel ih =>
    rw [decimalDigits]
    split
    case isTrue h =>
      rw [Nat.digits_of_lt 10 n (by omega) h]
      rfl
    case isFalse h =>
      rw [Nat.digits_def' (by decide) hpos, asciiText_cons, ih (by omega) (by omega)]

theorem paddedDigits_eq {n : Nat} (h : n < 10 ^ 20) :
    paddedDigits n = asciiText (timeDigits n) := by
  rw [paddedDigits, timeDigits]
  split
  case isTrue => rfl
  case isFalse hn => exact decimalDigits_eq (by omega) h

theorem lt_ten_of_mem_timeDigits {n d : Nat} (h : d ∈ timeDigits n) : d < 10 := by
  rw [timeDigits] at h
  split at h
  case isTrue hn =>
    rcases List.mem_pair.1 h with rfl | rfl
    · exact hn
    · decide
  case isFalse => exact Nat.digits_lt_base (by decide) h

theorem ofDigits_timeDigits (n : Nat) : Nat.ofDigits 10 (timeDigits n) = n := by
  rw [timeDigits]
  split
  case isTrue => simp [Nat.ofDigits_cons]
  case isFalse => exact Nat.ofDigits_digits 10 n

theorem two_le_length_timeDigits (n : Nat) : 2 ≤ (timeDigits n).length := by
  rw [timeDigits]
  split
  case isTrue => exact Nat.le_refl 2
  case isFalse hn => exact (Nat.lt_digits_length_iff (by decide) n).2 (by omega)

theorem length_timeDigits_le {n k : Nat} (hk : 2 ≤ k) (h : n < 10 ^ k) :
    (timeDigits n).length ≤ k := by
  rw [timeDigits]
  split
  case isTrue => exact hk
  case isFalse => exact (Nat.digits_length_le_iff (by decide) n).2 h

/-- A number that fills more than two digits has a nonzero leading one (R238). -/
theorem getLast?_timeDigits_ne_zero {n : Nat} (h : 2 < (timeDigits n).length) :
    (timeDigits n).getLast? ≠ some 0 := by
  rw [timeDigits] at h ⊢
  split at h
  case isTrue => exact absurd h (Nat.lt_irrefl 2)
  case isFalse hn =>
    have hne : n ≠ 0 := by omega
    rw [if_neg hn, List.getLast?_eq_some_getLast (Nat.digits_ne_nil_iff_ne_zero.2 hne)]
    exact fun hlast => Nat.getLast_digit_ne_zero 10 hne (Option.some.inj hlast)

/-- Text starts with '0' only where the leading digit is 0. -/
theorem head?_asciiText_ne {digits : List Nat} (hlt : ∀ d ∈ digits, d < 10)
    (hlast : digits.getLast? ≠ some 0) : (asciiText digits).head? ≠ some 0x30#8 := by
  rw [asciiText, List.head?_reverse, List.getLast?_map, Ne, Option.map_eq_some_iff]
  rintro ⟨d, hd, hzero⟩
  have htoNat := toNat_asciiDigit (hlt d (List.mem_of_getLast? hd))
  rw [hzero] at htoNat
  obtain rfl : d = 0 := Nat.left_eq_add.1 htoNat
  exact hlast hd

/-- What R238 says of one part of a time, hours or minutes. -/
structure SpellsTimePart (text : List Byte) (n : Nat) : Prop where
  /-- only the digits '0'..'9' -/
  digits : ∀ d ∈ text, 0x30 ≤ d.toNat ∧ d.toNat ≤ 0x39
  /-- the whole number, never truncated -/
  value : decimalValue text = n
  /-- padded to two digits -/
  two_le : 2 ≤ text.length
  /-- padded no further -/
  leading : 2 < text.length → text.head? ≠ some 0x30#8

theorem paddedDigits_spells {n : Nat} (h : n < 10 ^ 20) : SpellsTimePart (paddedDigits n) n := by
  have hlt : ∀ d ∈ timeDigits n, d < 10 := fun _ => lt_ten_of_mem_timeDigits
  rw [paddedDigits_eq h]
  constructor
  case digits => exact fun _ => toNat_of_mem_asciiText hlt
  case value => rw [decimalValue_asciiText hlt, ofDigits_timeDigits]
  case two_le => simpa using two_le_length_timeDigits n
  case leading =>
    intro hlength
    rw [length_asciiText] at hlength
    exact head?_asciiText_ne hlt (getLast?_timeDigits_ne_zero hlength)

/-- A number of at most `k` digits is written with at most `k`, two being the least. -/
theorem length_paddedDigits_le {n k : Nat} (hk : 2 ≤ k) (hk20 : k ≤ 20) (h : n < 10 ^ k) :
    (paddedDigits n).length ≤ k := by
  have h20 : n < 10 ^ 20 := Nat.lt_of_lt_of_le h (Nat.pow_le_pow_right (by decide) hk20)
  rw [paddedDigits_eq h20, length_asciiText]
  exact length_timeDigits_le hk h

/-- Settles O31: hours below 2^59 have at most 18 digits and minutes below 60 have two, so both
parts are spelled in full. -/
theorem timeTextSpellsHoursAndMinutes : Obligations.TimeTextSpellsHoursAndMinutes := by
  unfold Obligations.TimeTextSpellsHoursAndMinutes
  intro hours minutes hhours hminutes value
  have hoursSpelled := paddedDigits_spells (n := hours) (by omega)
  have minutesSpelled := paddedDigits_spells (n := minutes) (by omega)
  have hoursLength : (paddedDigits hours).length ≤ 18 :=
    length_paddedDigits_le (by decide) (by decide) (by omega)
  have minutesLength : (paddedDigits minutes).length = 2 :=
    Nat.le_antisymm (length_paddedDigits_le (Nat.le_refl 2) (by decide) (by omega))
      minutesSpelled.two_le
  have htext : (hhmmText hours minutes).length = (paddedDigits hours).length + 3 := by
    rw [hhmmText, List.length_append, List.length_cons, minutesLength]
  have htwo := hoursSpelled.two_le
  refine ⟨paddedDigits hours, paddedDigits minutes, rfl, ?digits, hoursSpelled.value,
    minutesSpelled.value, minutesLength, htwo, hoursSpelled.leading, by omega, by omega⟩
  case digits =>
    intro d hd
    rcases List.mem_append.1 hd with hd | hd
    · exact hoursSpelled.digits d hd
    · exact minutesSpelled.digits d hd

end Sys2Proof.Machine
end

section
/-! PROOF. The encoder against the decoder (30_encoding.md R80 to R83): decoding undoes encoding, as
a transaction and as 160 bits, and a decoded command keeps its word and the operands it reads. -/

namespace Sys2Proof

/-- The four fields fill 160 bits. -/
theorem CommandFields.toNat_lt (c : CommandFields) : c.toNat < 2 ^ 160 := by
  have hcw := c.cw.isLt
  have ha := c.a.isLt
  have hb := c.b.isLt
  have hf := c.f.isLt
  rw [CommandFields.toNat]
  omega

/-- The fields are read back from the bits they were laid out in. -/
theorem CommandFields.ofNat_toNat (c : CommandFields) : CommandFields.ofNat c.toNat = c := by
  obtain ⟨cw, a, b, f⟩ := c
  have hcw := cw.isLt
  have ha := a.isLt
  have hb := b.isLt
  have hf := f.isLt
  simp only [CommandFields.ofNat, CommandFields.toNat, CommandFields.mk.injEq]
  refine ⟨?_, ?_, ?_, ?_⟩ <;>
    · apply BitVec.eq_of_toNat_eq
      rw [BitVec.toNat_ofNat]
      omega

theorem decodeTableWord_toNat (c : CommandFields) :
    decodeTableWord 160 c.toNat = (decodeCommand c).toOption := by
  rw [decodeTableWord, commandOfWord, Nat.mod_eq_of_lt c.toNat_lt, c.ofNat_toNat]
  cases decodeCommand c <;> rfl

/-- SEPTET_RESTORE's septet byte comes back from the operand B it is encoded in. -/
theorem extractLsb'_setWidth_septet (septet : Byte) :
    (septet.setWidth 32).extractLsb' 0 8 = septet := by
  apply BitVec.eq_of_getLsbD_eq
  intro n hn
  simp only [BitVec.getLsbD_extractLsb', BitVec.getLsbD_setWidth]
  grind

theorem decode_encode (i : Instr) : decode (encode i) = .ok i := by
  cases i with
  | septetRestore data septet =>
    exact congrArg (fun b => Except.ok (Instr.septetRestore data b))
      (extractLsb'_setWidth_septet septet)
  | decode | getRaw | getTemperature | getTime | checksum7 | septetEncode | getDest | getSrc
  | getProto | getCmd | getFcnt | getHchk | reservedOp0 | reservedOpE | reservedOpF => rfl
  | load | read | reset => rfl

theorem encodeWord_eq_some {i : Instr} {w : Nat} (h : encodeWord i = some w) :
    ∃ c, encode i = .command c ∧ w = c.toNat := by
  unfold encodeWord at h
  cases he : encode i with
  | command c =>
    rw [he] at h
    exact ⟨c, rfl, (Option.some.inj h).symm⟩
  | load | read | reset => simp [he] at h

/-- Settles O1: `decode_encode`, and the 160 bits of a command stand for the command itself. -/
theorem decodeOfEncodeIsIdentity : Obligations.DecodeOfEncodeIsIdentity := by
  unfold Obligations.DecodeOfEncodeIsIdentity
  refine fun i => ⟨decode_encode i, fun w hw => ?word⟩
  case word =>
    obtain ⟨c, hc, rfl⟩ := encodeWord_eq_some hw
    have hdecode : decodeCommand c = .ok i := by
      rw [← decode_encode i, hc, decode]
    exact ⟨c.toNat_lt, by rw [decodeTableWord_toNat, hdecode]; rfl⟩

/-- What an instruction read from a command keeps of it (R82, R83). -/
def KeepsCommand (c : CommandFields) (i : Instr) : Prop :=
  i.isCommand = true ∧ ∃ c', encode i = .command c' ∧ c'.cw = c.cw ∧
    (2 ≤ c.cw.toNat ∧ c.cw.toNat ≤ 7 → c'.a = c.a) ∧
    (2 ≤ c.cw.toNat ∧ c.cw.toNat ≤ 5 → c'.b = c.b) ∧
    (c.cw = 6#32 → c'.b = c.b &&& 0xFF#32) ∧
    (c.cw = 3#32 → c'.f = c.f)

/-- Encoding the septet byte of B gives B's low byte. -/
theorem setWidth_extractLsb'_septet (b : Word) :
    (b.extractLsb' 0 8).setWidth 32 = b &&& 0xFF#32 := by
  apply BitVec.eq_of_toNat_eq
  rw [BitVec.toNat_setWidth, BitVec.extractLsb'_toNat, BitVec.toNat_and, Nat.shiftRight_zero]
  show b.toNat % 2 ^ 8 % 2 ^ 32 = b.toNat &&& (2 ^ 8 - 1)
  rw [Nat.and_two_pow_sub_one_eq_mod]
  omega

/-- Row by row of the opcode map: the row's word and the operands it reads come back. -/
theorem opcodeMap_row_keepsCommand (c : CommandFields) :
    ∀ row ∈ opcodeMap, row.1 = c.cw → KeepsCommand c (row.2 c) := by
  obtain ⟨cw, a, b, f⟩ := c
  simp only [opcodeMap, List.forall_mem_cons, List.not_mem_nil, false_implies, implies_true,
    and_true]
  refine ⟨?_, ?_, ?_, ?_, ?_, ?_, ?septetRestore, ?_, ?_, ?_, ?_, ?_, ?_, ?_, ?_, ?_⟩ <;> rintro rfl
  case septetRestore =>
    exact ⟨rfl, _, rfl, rfl, fun _ => rfl, by simp, fun _ => setWidth_extractLsb'_septet b, by simp⟩
  all_goals exact ⟨rfl, _, rfl, rfl, by simp, by simp, by simp, by simp⟩

theorem decodeCommand_eq_ok {c : CommandFields} {i : Instr} (h : decodeCommand c = .ok i) :
    ∃ row ∈ opcodeMap, row.1 = c.cw ∧ i = row.2 c := by
  unfold decodeCommand at h
  cases hfind : opcodeMap.find? (fun row => row.1 == c.cw) with
  | none => simp [hfind] at h
  | some row =>
    rw [hfind] at h
    exact ⟨row, List.mem_of_find?_eq_some hfind, by simpa using List.find?_some hfind,
      (Except.ok.inj h).symm⟩

/-- The opcode map has a row for each of the sixteen words (R82, R85). -/
theorem opcodeMap_complete :
    ∀ op : Fin 16, (opcodeMap.find? (fun row => row.1 == BitVec.ofNat 32 op)).isSome = true := by
  decide

theorem toNat_lt_of_reserved_clear {cw : Word} (h : cw.extractLsb' 4 28 = 0#28) :
    cw.toNat < 16 := by
  have hdiv : cw.toNat / 2 ^ 4 % 2 ^ 28 = 0 := by
    simpa [Nat.shiftRight_eq_div_pow] using congrArg BitVec.toNat h
  have hlt := cw.isLt
  omega

theorem decodeCommand_of_reserved_clear {c : CommandFields} (h : c.cw.extractLsb' 4 28 = 0#28) :
    ∃ i, decodeCommand c = .ok i := by
  have hrow := opcodeMap_complete ⟨c.cw.toNat, toNat_lt_of_reserved_clear h⟩
  rw [BitVec.ofNat_toNat, BitVec.setWidth_eq] at hrow
  obtain ⟨row, hfind⟩ := Option.isSome_iff_exists.1 hrow
  exact ⟨row.2 c, by rw [decodeCommand, hfind]⟩

/-- Settles O2: the map has a row for every word with clear reserved bits, and each row keeps its
word and operands. -/
theorem decodedCommandKeepsItsWord : Obligations.DecodedCommandKeepsItsWord := by
  unfold Obligations.DecodedCommandKeepsItsWord
  refine fun c => ⟨decodeCommand_of_reserved_clear, fun i hi => ?keeps⟩
  case keeps =>
    obtain ⟨row, hrow, hword, rfl⟩ := decodeCommand_eq_ok hi
    exact opcodeMap_row_keepsCommand c row hrow hword

/-- Settles O4: the decoder evaluated on the seven words. -/
theorem writtenOutWordsDecode : Obligations.WrittenOutWordsDecode := by
  unfold Obligations.WrittenOutWordsDecode
  decide

end Sys2Proof

namespace Sys2Proof.Machine

theorem step_of_no_pending {s : State} (h : s.pending = []) : step s = .next s := by
  simp only [step, fetch, h, idle]

/-- Settles O6: the two branches of `step`. -/
theorem stepRunsTheDecodedTransaction : Obligations.StepRunsTheDecodedTransaction := by
  unfold Obligations.StepRunsTheDecodedTransaction
  exact fun s => ⟨fun _ _ _ hp hd => step_of_decode_ok hp hd, step_of_no_pending⟩

end Sys2Proof.Machine
end

section
/-! PROOF. What a transaction can do, once for all invariants (10_state.md R20 to R31): every next
state of an instruction is one of the states of `Effect`, and a property that no instruction breaks
is one that no step breaks. -/

namespace Sys2Proof.Machine

/-- Everything an instruction can answer as a next state. -/
inductive Effect (s : State) : Instr → State → Prop where
  /-- A command that leaves the packet alone. -/
  | command {i : Instr} {t : State} (hcommand : i.isCommand = true) (hdecode : i ≠ .decode)
      (h : CommandAnswer s t) : Effect s i t
  /-- DECODE while BUSY = 1. -/
  | decodeTurnedAway (hbusy : s.busy = true) : Effect s .decode s.markRefused
  /-- DECODE of a telegram that raises. -/
  | decodeRaises {buf : List Byte} {e : VBusError} (h : decodeTelegram buf = .error e) :
      Effect s .decode ((s.withPacket none).respond (.ofError e))
  /-- DECODE of a telegram that is accepted. -/
  | decodeHolds {buf : List Byte} {p : Packet} (h : decodeTelegram buf = .ok p) :
      Effect s .decode ((s.withPacket (some p)).respond (.ok (BitVec.ofNat 64 p.plen)))
  /-- LOAD of a buffer that is taken. -/
  | loadTakes {bytes : List Byte} (h : loadAccepted s bytes.length = true) :
      Effect s (.load bytes) (s.withInput (Memory.ofBytes bytes) (BitVec.ofNat 32 bytes.length))
  /-- LOAD of a buffer that is refused. -/
  | loadRefused (bytes : List Byte) : Effect s (.load bytes) s.markRefused
  /-- READ of a register that holds a value. -/
  | readAnswers (n : Nat) (v : Word) : Effect s (.read n) (s.withReadPort (some v))
  /-- READ that is refused. -/
  | readRefused (n : Nat) : Effect s (.read n) (s.withReadPort none).markRefused
  /-- RESET. -/
  | reset : Effect s .reset (State.reset.withPending s.pending)

theorem exec_effect {i : Instr} {s t : State} (h : exec i s = .next t) : Effect s i t := by
  by_cases hcommand : i.isCommand = true
  · by_cases hdecode : i = .decode
    · subst hdecode
      rcases execDecode_next h with ⟨hb, rfl⟩ | ⟨_, buf, _, ⟨e, he, rfl⟩ | ⟨p, hp, rfl⟩⟩
      · exact .decodeTurnedAway hb
      · exact .decodeRaises he
      · exact .decodeHolds hp
    · exact .command hcommand hdecode (exec_command_answer hcommand hdecode h)
  · cases i with
    | load bytes =>
      rcases execLoad_next h with ⟨ha, rfl⟩ | ⟨_, rfl⟩
      · exact .loadTakes ha
      · exact .loadRefused bytes
    | read n =>
      rcases execRead_next h with ⟨v, _, _, rfl⟩ | ⟨_, rfl⟩
      · exact .readAnswers n v
      · exact .readRefused n
    | reset =>
      cases h
      exact .reset
    | _ => exact absurd rfl hcommand

/-- A command word that is no instruction is refused as a reserved command is (R81, R85). -/
theorem undecodable_eq_exec (e : DecodeError) (s : State) :
    undecodable e s = exec .reservedOp0 s := rfl

/-- A step that takes a transaction is the step of its instruction, or, where its word is none, that
of a reserved command. -/
theorem step_eq_exec {s : State} {tr : Transaction} {rest : List Transaction}
    (hp : s.pending = tr :: rest) :
    ∃ i, step s = exec i (s.withPending rest) ∧ (decode tr = .ok i ∨ i = .reservedOp0) := by
  cases hd : decode tr with
  | ok i => exact ⟨i, step_of_decode_ok hp hd, .inl rfl⟩
  | error e =>
    exact ⟨.reservedOp0, (step_of_decode_error hp hd).trans (undecodable_eq_exec e _), .inr rfl⟩

/-- What a step can do: nothing where there is nothing to take, or else an instruction's effect. -/
theorem step_next {s t : State} (h : step s = .next t) :
    t = s ∨ ∃ tr rest i, s.pending = tr :: rest ∧ (decode tr = .ok i ∨ i = .reservedOp0) ∧
      Effect (s.withPending rest) i t := by
  cases hp : s.pending with
  | nil =>
    rw [step_of_no_pending hp] at h
    exact .inl (Host.Outcome.next.inj h).symm
  | cons tr rest =>
    obtain ⟨i, hstep, hi⟩ := step_eq_exec hp
    exact .inr ⟨tr, rest, i, rfl, hi, exec_effect (hstep ▸ h)⟩

/-- An invariant of the instructions that does not look at the host's transactions is one of the
steps. -/
theorem step_keeps {P : State → Prop} (hpending : ∀ s ts, P s → P (s.withPending ts))
    (hexec : ∀ i s t, P s → exec i s = .next t → P t) {s t : State} (hs : P s)
    (h : step s = .next t) : P t := by
  cases hp : s.pending with
  | nil =>
    rw [step_of_no_pending hp] at h
    exact Host.Outcome.next.inj h ▸ hs
  | cons tr rest =>
    obtain ⟨i, hstep, _⟩ := step_eq_exec hp
    exact hexec i _ t (hpending s rest hs) (hstep ▸ h)

end Sys2Proof.Machine
end

section
/-! PROOF. IBUF and LEN (10_state.md R22): only LOAD and RESET write them. -/

namespace Sys2Proof.Machine

theorem State.inputInv_congr {s t : State} (hibuf : t.ibuf = s.ibuf) (hlen : t.len = s.len)
    (hs : s.inputInv) : t.inputInv := by
  rw [State.inputInv, hibuf, hlen]
  exact hs

theorem State.inputInv_withInput {s : State} {bytes : List Byte}
    (h : loadAccepted s bytes.length = true) :
    (s.withInput (Memory.ofBytes bytes) (BitVec.ofNat 32 bytes.length)).inputInv := by
  obtain ⟨_, hcap, hbound⟩ := loadAccepted_iff.1 h
  have hlen : (BitVec.ofNat 32 bytes.length).toNat = bytes.length := by
    rw [BitVec.toNat_ofNat, Nat.mod_eq_of_lt hbound]
  rw [State.inputInv, State.withInput_ibuf, State.withInput_len, hlen]
  exact ⟨Memory.holds_ofBytes bytes, hcap⟩

theorem State.inputInv_reset (ts : List Transaction) : (State.reset.withPending ts).inputInv :=
  ⟨Memory.holds_nil, Nat.zero_le _⟩

theorem exec_keeps_inputInv (i : Instr) (s t : State) (hs : s.inputInv) (h : exec i s = .next t) :
    t.inputInv := by
  cases exec_effect h with
  | command hcommand =>
    obtain ⟨hibuf, hlen, _⟩ := exec_command_keepsInput hcommand h
    exact State.inputInv_congr hibuf hlen hs
  | decodeTurnedAway | decodeRaises | decodeHolds =>
    exact State.inputInv_congr rfl rfl hs
  | loadTakes haccepted => exact State.inputInv_withInput haccepted
  | loadRefused | readAnswers | readRefused => exact State.inputInv_congr rfl rfl hs
  | reset => exact State.inputInv_reset _

theorem step_keeps_inputInv {s t : State} (hs : s.inputInv) (h : step s = .next t) : t.inputInv :=
  step_keeps (fun _ _ hs => State.inputInv_congr rfl rfl hs) exec_keeps_inputInv hs h

/-- Settles O49: the packaged induction with `exec_keeps_inputInv`. -/
theorem stepKeepsTheInputBuffer : Obligations.StepKeepsTheInputBuffer := by
  unfold Obligations.StepKeepsTheInputBuffer
  exact fun _ _ => step_keeps_inputInv

end Sys2Proof.Machine
end

section
/-! PROOF. The held packet (10_state.md R26 to R28): DECODE commits a legal one (41_header.md R129),
and no other instruction but RESET writes it. -/

namespace Sys2Proof.Machine

theorem getLsbD_seven_of_le {b : Byte} (h : b.toNat ≤ 0x7F) : b.getLsbD 7 = false :=
  Nat.testBit_lt_two_pow (Nat.lt_succ_of_le h)

/-- A u16 of two wire bytes the guard has passed has bits 7 and 15 clear (R26, R150). -/
theorem le16_high_bits_clear {lo hi : Byte} (hlo : lo.toNat ≤ 0x7F) (hhi : hi.toNat ≤ 0x7F) :
    (le16 lo hi).getLsbD 7 = false ∧ (le16 lo hi).getLsbD 15 = false := by
  rw [le16, BitVec.getLsbD_append, BitVec.getLsbD_append]
  exact ⟨getLsbD_seven_of_le hlo, getLsbD_seven_of_le hhi⟩

/-- The header registers hold the bytes the header checksum covers (R106, R129). -/
theorem headerBytes_toPacket {buf : List Byte} (h : 10 ≤ buf.length) (pay : Memory) :
    ((headerFields buf).toPacket pay).headerBytes = slice buf 1 8 := by
  rw [slice_headerBytes h]
  simp [Packet.headerBytes, Header.toPacket, headerFields, lowByte_le16, highByte_le16]

/-- The payload of a decode has four bytes a frame (R27, R203). -/
theorem decodeFrames_holds {buf : List Byte} {fc : Nat} {pay : Memory}
    (h : decodeFrames buf fc = .ok pay) : Memory.holds pay (4 * fc) := by
  obtain ⟨_, rfl⟩ := decodeFramesFrom_ok.1 h
  simpa using holds_framesWritten (n := fc) (i := 0) Memory.holds_nil

theorem decodeTelegram_ok_legal {buf : List Byte} {p : Packet} (h : decodeTelegram buf = .ok p) :
    p.Legal := by
  obtain ⟨hd, pay, hheader, hguard, hframes, rfl⟩ := decodeTelegram_ok h
  obtain ⟨hlen, _, hproto, hchk, hexact, rfl⟩ := parseHeader_ok hheader
  have hclear := integrityGuard_ok.1 hguard
  have hlow : ∀ j, 1 ≤ j → j ≤ 9 → (byteAt buf j).toNat ≤ 0x7F :=
    fun j hpos hj => hclear j hpos (by omega)
  exact {
    pay := decodeFrames_holds hframes
    dest := le16_high_bits_clear (hlow 1 (by decide) (by decide)) (hlow 2 (by decide) (by decide))
    src := le16_high_bits_clear (hlow 3 (by decide) (by decide)) (hlow 4 (by decide) (by decide))
    proto := hproto
    cmd := le16_high_bits_clear (hlow 6 (by decide) (by decide)) (hlow 7 (by decide) (by decide))
    fcnt := hlow 8 (by decide) (by decide)
    hchk := by
      rw [headerBytes_toPacket hlen]
      exact hchk }

theorem State.packetInv_congr {s t : State} (hpacket : t.packet = s.packet) (hs : s.packetInv) :
    t.packetInv := by
  rw [State.packetInv, hpacket]
  exact hs

theorem State.packetInv_of_none {s : State} (h : s.packet = none) : s.packetInv := by
  intro p hp
  rw [h] at hp
  cases hp

theorem State.packetInv_of_some {s : State} {p : Packet} (h : s.packet = some p) (hp : p.Legal) :
    s.packetInv := by
  intro q hq
  rw [h] at hq
  exact Option.some.inj hq ▸ hp

theorem exec_keeps_packetInv (i : Instr) (s t : State) (hs : s.packetInv) (h : exec i s = .next t) :
    t.packetInv := by
  cases exec_effect h with
  | command _ _ hanswer => exact State.packetInv_congr hanswer.packet_eq hs
  | decodeTurnedAway => exact State.packetInv_congr rfl hs
  | decodeRaises => exact State.packetInv_of_none rfl
  | decodeHolds hp => exact State.packetInv_of_some rfl (decodeTelegram_ok_legal hp)
  | loadTakes | loadRefused | readAnswers | readRefused => exact State.packetInv_congr rfl hs
  | reset => exact State.packetInv_of_none rfl

theorem step_keeps_packetInv {s t : State} (hs : s.packetInv) (h : step s = .next t) :
    t.packetInv :=
  step_keeps (fun _ _ hs => State.packetInv_congr rfl hs) exec_keeps_packetInv hs h

/-- Settles O50: the packaged induction with `exec_keeps_packetInv`, whose content is
`decodeTelegram_ok_legal`. -/
theorem stepKeepsPacketsLegal : Obligations.StepKeepsPacketsLegal := by
  unfold Obligations.StepKeepsPacketsLegal
  exact fun _ _ => step_keeps_packetInv

/-- No instruction but DECODE and RESET writes the packet. -/
theorem Effect.packet_eq {s t : State} {i : Instr} (h : Effect s i t) (hdecode : i ≠ .decode)
    (hreset : i ≠ .reset) : t.packet = s.packet := by
  cases h with
  | command _ _ hanswer => exact hanswer.packet_eq
  | decodeTurnedAway | decodeRaises | decodeHolds => exact absurd rfl hdecode
  | loadTakes | loadRefused | readAnswers | readRefused => rfl
  | reset => exact absurd rfl hreset

/-- Only RESET decodes to RESET (R82: it has no command word). -/
theorem eq_reset_of_decode {tr : Transaction} (h : decode tr = .ok .reset) : tr = .reset := by
  cases tr with
  | command c => exact absurd (decodedCommandKeepsItsWord c |>.2 .reset h).1 Bool.false_ne_true
  | load | read => simp [decode] at h
  | reset => rfl

/-- Settles O48: a step that changes the packet took an instruction, and `Effect.packet_eq` leaves
DECODE and RESET. -/
theorem onlyDecodeAndResetChangeThePacket : Obligations.OnlyDecodeAndResetChangeThePacket := by
  unfold Obligations.OnlyDecodeAndResetChangeThePacket
  intro s t h hchanged
  rcases step_next h with rfl | ⟨tr, rest, i, hp, hi, heffect⟩
  · exact absurd rfl hchanged
  · refine ⟨tr, rest, hp, ?_⟩
    rcases hi with hi | rfl
    · by_cases hdecode : i = .decode
      · exact .inl (hdecode ▸ hi)
      · by_cases hreset : i = .reset
        · exact .inr (eq_reset_of_decode (hreset ▸ hi))
        · exact absurd (heffect.packet_eq hdecode hreset) hchanged
    · exact absurd (heffect.packet_eq (by decide) (by decide)) hchanged

end Sys2Proof.Machine
end

section
/-! PROOF. REFUSED (10_state.md R24): every instruction but RESET leaves it set. -/

namespace Sys2Proof.Machine

theorem CommandAnswer.refused_mono {s t : State} (h : CommandAnswer s t) (hs : s.refused = true) :
    t.refused = true := by
  cases h with
  | turnedAway | refused => rfl
  | responds => exact hs

theorem Effect.refused_mono {s t : State} {i : Instr} (h : Effect s i t) (hreset : i ≠ .reset)
    (hs : s.refused = true) : t.refused = true := by
  cases h with
  | command _ _ hanswer => exact hanswer.refused_mono hs
  | decodeTurnedAway | loadRefused | readRefused => rfl
  | decodeRaises | decodeHolds | loadTakes | readAnswers => exact hs
  | reset => exact absurd rfl hreset

/-- Settles O47: by `Effect.refused_mono` the instruction taken is RESET. -/
theorem onlyResetClearsRefused : Obligations.OnlyResetClearsRefused := by
  unfold Obligations.OnlyResetClearsRefused
  intro s t h hs ht
  rcases step_next h with rfl | ⟨tr, rest, i, hp, hi, heffect⟩
  · exact absurd (hs.symm.trans ht) (by decide)
  · have hreset : i = .reset := by
      by_contra hreset
      exact absurd ((heffect.refused_mono hreset hs).symm.trans ht) (by decide)
    subst hreset
    rcases hi with hi | hi
    · exact ⟨rest, eq_reset_of_decode hi ▸ hp⟩
    · cases hi

end Sys2Proof.Machine
end

section
/-! PROOF. The response registers (10_state.md R29; 60_exceptions.md R260): every response a
transaction writes is legal, and ST = 0xF comes with REFUSED. -/

namespace Sys2Proof.Machine

theorem Response.empty_legal : Response.empty.Legal := by
  constructor <;> simp

theorem Response.ok_legal (r0 : DWord) {r1 : Option DWord} {ts : Option (List Byte)}
    (hts : ∀ text, ts = some text → r1.isSome = true ∧ 5 ≤ text.length ∧ text.length ≤ 21) :
    (Response.ok r0 r1 ts).Legal := by
  constructor
  case ts => exact hts
  all_goals simp

theorem Response.ok_legal_of_no_text (r0 : DWord) (r1 : Option DWord) :
    (Response.ok r0 r1).Legal :=
  Response.ok_legal r0 fun _ h => nomatch h

/-- A status other than 0x0 whose error arguments are those R260 gives the code. -/
theorem Response.status_legal {c : BitVec 4} {e0 e1 e2 : Option Word}
    (hc : c ≠ 0x0#4) (hst : c.toNat ≤ 8 ∨ c = 0xF#4)
    (he0 : e0.isSome = true ↔ 2 ≤ c.toNat ∧ c.toNat ≤ 8)
    (he1 : e1.isSome = true ↔ 4 ≤ c.toNat ∧ c.toNat ≤ 8)
    (he2 : e2.isSome = true ↔ c = 0x7#4 ∨ c = 0x8#4) : (Response.status c e0 e1 e2).Legal := by
  constructor <;> simp_all

theorem Response.ofError_legal (e : VBusError) : (Response.ofError e).Legal := by
  cases e with
  | syncByteMismatch | headerTooShort | unsupportedProtocol | headerChecksumMismatch
  | lengthMismatch | highBitSetError | frameChecksumMismatch | offsetOutOfRange =>
    apply Response.status_legal <;> simp

theorem Response.ofError_st_ne_refused (e : VBusError) : (Response.ofError e).st ≠ some 0xF#4 := by
  cases e <;> simp [Response.ofError]

theorem Response.refused_legal : Response.refused.Legal := by
  apply Response.status_legal <;> simp

/-- The text GET_TIME writes has 5 to 21 bytes (R238). -/
theorem length_hhmmText {raw : Nat} (h : raw < 2 ^ 64) :
    5 ≤ (hhmmText (raw / 60) (raw % 60)).length ∧ (hhmmText (raw / 60) (raw % 60)).length ≤ 21 := by
  obtain ⟨_, _, _, _, _, _, _, _, _, hbounds⟩ :=
    timeTextSpellsHoursAndMinutes (raw / 60) (raw % 60) (by omega) (by omega)
  exact hbounds

theorem State.responseInv_congr {s t : State} (hresp : t.resp = s.resp)
    (hrefused : s.refused = true → t.refused = true) (hs : s.responseInv) : t.responseInv := by
  rw [State.responseInv, hresp]
  exact ⟨hs.1, fun hst => hrefused (hs.2 hst)⟩

theorem State.responseInv_markRefused {s : State} (hs : s.responseInv) :
    s.markRefused.responseInv :=
  State.responseInv_congr (s := s) rfl (fun _ => rfl) hs

theorem State.responseInv_refused (s : State) : (s.markRefused.respond .refused).responseInv :=
  ⟨Response.refused_legal, fun _ => rfl⟩

theorem State.responseInv_respond (s : State) {r : Response} (hlegal : r.Legal)
    (hst : r.st ≠ some 0xF#4) : (s.respond r).responseInv :=
  ⟨hlegal, fun h => absurd h hst⟩

theorem State.responseInv_ok (s : State) (r0 : DWord) (r1 : Option DWord) :
    (s.respond (.ok r0 r1)).responseInv :=
  s.responseInv_respond (Response.ok_legal_of_no_text r0 r1) (by simp)

theorem State.responseInv_ofError (s : State) (e : VBusError) :
    (s.respond (.ofError e)).responseInv :=
  s.responseInv_respond (Response.ofError_legal e) (Response.ofError_st_ne_refused e)

theorem State.responseInv_reset (ts : List Transaction) :
    (State.reset.withPending ts).responseInv :=
  ⟨Response.empty_legal, nofun⟩

theorem acceptCommand_keeps_responseInv {s t : State} {run : State → StepResult}
    (hs : s.responseInv) (hrun : run s = .next t → t.responseInv)
    (h : acceptCommand s run = .next t) : t.responseInv := by
  rcases acceptCommand_next h with ⟨_, rfl⟩ | ⟨_, h⟩
  · exact State.responseInv_markRefused hs
  · exact hrun h

theorem returnOk_responseInv {s t : State} (r0 : DWord) (r1 : Option DWord)
    (h : returnOk s r0 r1 = .next t) : t.responseInv := by
  cases h
  exact s.responseInv_ok r0 r1

theorem exec_septetRestore (data : Word) (septet : Byte) (s : State) :
    exec (.septetRestore data septet) s = acceptCommand s fun s =>
      returnOk s ((septetRestore (Block.ofWord data) septet).toWord.setWidth 64) := rfl

theorem exec_septetEncode (data : Word) (s : State) :
    exec (.septetEncode data) s = acceptCommand s fun s =>
      returnOk s ((septetEncode (Block.ofWord data)).1.toWord.setWidth 64)
        (some ((septetEncode (Block.ofWord data)).2.setWidth 64)) := rfl

theorem headerRead_keeps_responseInv {s t : State} {field : Packet → DWord} (hs : s.responseInv)
    (h : headerRead s field = .next t) : t.responseInv := by
  rcases headerRead_next h with ⟨_, rfl⟩ | ⟨_, _, rfl⟩ | ⟨_, p, _, rfl⟩
  · exact State.responseInv_markRefused hs
  · exact s.responseInv_refused
  · exact s.responseInv_ok _ _

/-- A field read keeps the responses legal when its result is legal for the integers it can read. -/
theorem fieldRead_keeps_responseInv {s t : State} {offset size : Word} {admitted : Bool}
    {result : Nat → Response} (hs : s.responseInv)
    (hresult : ∀ raw, raw < 256 ^ size.toNat → admitted = true →
      (s.respond (result raw)).responseInv)
    (h : fieldRead s offset size admitted result = .next t) : t.responseInv := by
  rcases fieldRead_next h with ⟨_, rfl⟩ | ⟨_, _, rfl⟩ | ⟨_, p, _, _, rfl⟩ | ⟨_, p, _, _, _, rfl⟩ |
    ⟨_, p, bytes, _, _, hadmitted, hbytes, rfl⟩
  · exact State.responseInv_markRefused hs
  · exact s.responseInv_refused
  · exact s.responseInv_ofError _
  · exact s.responseInv_refused
  · exact hresult _ (Memory.length_readRange hbytes ▸ leNat_lt bytes) hadmitted

/-- The result of GET_TIME for a field of at most 8 bytes (R236 to R238). -/
theorem State.responseInv_time (s : State) {raw : Nat} (h : raw < 2 ^ 64) (hours minutes : DWord) :
    (s.respond (.ok hours (some minutes) (some (hhmmText (raw / 60) (raw % 60))))).responseInv := by
  refine s.responseInv_respond (Response.ok_legal hours fun text htext => ?_) (by simp)
  obtain rfl := Option.some.inj htext
  exact ⟨rfl, length_hhmmText h⟩

theorem exec_command_keeps_responseInv {i : Instr} {s t : State} (hcommand : i.isCommand = true)
    (hdecode : i ≠ .decode) (hs : s.responseInv) (h : exec i s = .next t) : t.responseInv := by
  cases i with
  | decode => exact absurd rfl hdecode
  | getRaw =>
    rw [exec_getRaw] at h
    exact fieldRead_keeps_responseInv hs (fun _ _ _ => s.responseInv_ok _ _) h
  | getTemperature =>
    rw [exec_getTemperature] at h
    exact fieldRead_keeps_responseInv hs (fun _ _ _ => s.responseInv_ok _ _) h
  | getTime offset size =>
    rw [exec_getTime] at h
    refine fieldRead_keeps_responseInv hs (fun raw hraw hadmitted => ?_) h
    have hraw64 : raw < 2 ^ 64 :=
      calc raw < 256 ^ size.toNat := hraw
        _ ≤ 256 ^ 8 := Nat.pow_le_pow_right (by decide) (sizeAdmitted_iff.1 hadmitted)
        _ = 2 ^ 64 := by decide
    exact s.responseInv_time hraw64 _ _
  | checksum7 =>
    rcases execChecksum7_next h with ⟨_, rfl⟩ | ⟨_, _, rfl⟩ | ⟨_, _, bytes, _, rfl⟩
    · exact State.responseInv_markRefused hs
    · exact s.responseInv_refused
    · exact s.responseInv_ok _ _
  | septetRestore =>
    rw [exec_septetRestore] at h
    exact acceptCommand_keeps_responseInv hs (returnOk_responseInv _ _) h
  | septetEncode =>
    rw [exec_septetEncode] at h
    exact acceptCommand_keeps_responseInv hs (returnOk_responseInv _ _) h
  | getDest | getSrc | getProto | getCmd | getFcnt | getHchk =>
    exact headerRead_keeps_responseInv hs h
  | reservedOp0 | reservedOpE | reservedOpF =>
    refine acceptCommand_keeps_responseInv hs (fun hrun => ?_) h
    cases hrun
    exact s.responseInv_refused
  | load | read | reset => exact absurd hcommand Bool.false_ne_true

theorem exec_keeps_responseInv (i : Instr) (s t : State) (hs : s.responseInv)
    (h : exec i s = .next t) : t.responseInv := by
  cases exec_effect h with
  | command hcommand hdecode => exact exec_command_keeps_responseInv hcommand hdecode hs h
  | decodeTurnedAway | loadRefused | readRefused =>
    exact State.responseInv_congr (s := s) rfl (fun _ => rfl) hs
  | decodeRaises => exact State.responseInv_ofError _ _
  | decodeHolds => exact State.responseInv_ok _ _ _
  | loadTakes | readAnswers => exact State.responseInv_congr rfl id hs
  | reset => exact State.responseInv_reset _

theorem step_keeps_responseInv {s t : State} (hs : s.responseInv) (h : step s = .next t) :
    t.responseInv :=
  step_keeps (fun _ _ hs => State.responseInv_congr rfl id hs) exec_keeps_responseInv hs h

/-- Settles O51: the packaged induction with `exec_keeps_responseInv`. -/
theorem stepKeepsResponsesLegal : Obligations.StepKeepsResponsesLegal := by
  unfold Obligations.StepKeepsResponsesLegal
  exact fun _ _ => step_keeps_responseInv

end Sys2Proof.Machine
end

section
/-! PROOF. The invariant of every run (10_state.md R22 to R29; 70_reset_and_hazards.md R296): reset
has it, an instruction answers wherever the bytes it reads are there, and a run from reset takes the
host's transactions in order to the end. -/

namespace Sys2Proof.Machine

theorem State.Inv.withPending {s : State} (h : s.Inv) (ts : List Transaction) :
    (s.withPending ts).Inv :=
  ⟨h.busy, State.inputInv_congr rfl rfl h.input, State.packetInv_congr rfl h.packet,
    State.responseInv_congr rfl id h.response⟩

theorem State.inv_reset (ts : List Transaction) : (State.reset.withPending ts).Inv :=
  ⟨rfl, State.inputInv_reset ts, State.packetInv_of_none rfl, State.responseInv_reset ts⟩

/-- Settles O52: the parts of `State.inv_reset`, with no transaction pending. -/
theorem resetSatisfiesTheInvariant : Obligations.ResetSatisfiesTheInvariant := by
  unfold Obligations.ResetSatisfiesTheInvariant
  exact State.inv_reset []

/-- No instruction leaves the core busy that was not (R296). -/
theorem Effect.idle {s t : State} {i : Instr} (h : Effect s i t) (hs : s.busy = false) :
    t.busy = false := by
  cases h with
  | command _ _ hanswer => exact hanswer.keepsInput.busy.trans hs
  | decodeTurnedAway | decodeRaises | decodeHolds => exact hs
  | loadTakes | loadRefused | readAnswers | readRefused => exact hs
  | reset => rfl

/-- No instruction touches what the host has still to present (R60). -/
theorem Effect.pending_eq {s t : State} {i : Instr} (h : Effect s i t) :
    t.pending = s.pending := by
  cases h with
  | command _ _ hanswer => exact hanswer.keepsInput.pending
  | decodeTurnedAway | decodeRaises | decodeHolds => rfl
  | loadTakes | loadRefused | readAnswers | readRefused => rfl
  | reset => rfl

theorem exec_keeps_inv (i : Instr) (s t : State) (hs : s.Inv) (h : exec i s = .next t) : t.Inv :=
  ⟨(exec_effect h).idle hs.busy, exec_keeps_inputInv i s t hs.input h,
    exec_keeps_packetInv i s t hs.packet h, exec_keeps_responseInv i s t hs.response h⟩

/-- A range of bytes that are all there can be read (R22). -/
theorem Memory.readRange_of_read_isSome {m : Memory} {n : Nat}
    (h : ∀ a, a < n → (Memory.read m a).isSome = true) {a k : Nat} (hk : a + k ≤ n) :
    ∃ bs, Memory.readRange m a k = some bs := by
  induction k generalizing a with
  | zero => exact ⟨[], rfl⟩
  | succ k ih =>
    obtain ⟨bs, hbs⟩ := ih (a := a + 1) (by omega)
    obtain ⟨b, hb⟩ := Option.isSome_iff_exists.1 (h a (by omega))
    exact ⟨b :: bs, by simp only [Memory.readRange, hb, hbs]⟩

theorem acceptCommand_answers {s : State} {run : State → StepResult}
    (h : s.busy = false → ∃ t, run s = .next t) : ∃ t, acceptCommand s run = .next t := by
  cases hb : s.busy with
  | true => exact ⟨_, acceptCommand_busy hb⟩
  | false => rw [acceptCommand_idle hb]; exact h hb

theorem headerRead_answers (s : State) (field : Packet → DWord) :
    ∃ t, headerRead s field = .next t := by
  refine acceptCommand_answers fun _ => ?_
  cases s.packet with
  | none => exact ⟨_, rfl⟩
  | some p => exact ⟨_, rfl⟩

theorem fieldRead_answers {s : State} (offset size : Word) (admitted : Bool)
    (result : Nat → Response)
    (h : ∀ p, s.packet = some p → ∀ a, a < p.plen → (Memory.read p.pay a).isSome = true) :
    ∃ t, fieldRead s offset size admitted result = .next t := by
  cases hb : s.busy with
  | true => exact ⟨_, acceptCommand_busy hb⟩
  | false =>
    cases hp : s.packet with
    | none =>
      rw [fieldRead, acceptCommand_idle hb, hp]
      exact ⟨_, rfl⟩
    | some p =>
      rcases Nat.lt_or_ge p.plen (offset.toNat + size.toNat) with hrange | hrange
      · exact ⟨_, fieldRead_of_out_of_range hb hp hrange⟩
      · cases admitted with
        | false => exact ⟨_, fieldRead_of_not_admitted hb hp hrange Bool.false_ne_true⟩
        | true =>
          obtain ⟨bytes, hbytes⟩ := Memory.readRange_of_read_isSome (h p hp) hrange
          exact ⟨_, fieldRead_completes hb hp hrange hbytes⟩

theorem execChecksum7_answers {s : State} (offset length : Word)
    (h : ∀ a, a < s.len.toNat → (Memory.read s.ibuf a).isSome = true) :
    ∃ t, execChecksum7 offset length s = .next t := by
  refine acceptCommand_answers fun _ => ?_
  rcases Nat.lt_or_ge s.len.toNat (offset.toNat + length.toNat) with hrange | hrange
  · rw [if_pos hrange]
    exact ⟨_, rfl⟩
  · obtain ⟨bytes, hbytes⟩ := Memory.readRange_of_read_isSome h hrange
    rw [if_neg (Nat.not_lt.2 hrange), hbytes]
    exact ⟨_, rfl⟩

theorem execDecode_answers {s : State}
    (h : ∀ a, a < s.len.toNat → (Memory.read s.ibuf a).isSome = true) :
    ∃ t, execDecode s = .next t := by
  refine acceptCommand_answers fun _ => ?_
  obtain ⟨buf, hbuf⟩ := Memory.readRange_of_read_isSome h (Nat.le_of_eq (Nat.zero_add s.len.toNat))
  cases hdecode : decodeTelegram buf with
  | error e => exact ⟨_, by simp only [hbuf, hdecode]; rfl⟩
  | ok p => exact ⟨_, by simp only [hbuf, hdecode]; rfl⟩

theorem execLoad_answers (bytes : List Byte) (s : State) : ∃ t, execLoad bytes s = .next t := by
  by_cases h : loadAccepted s bytes.length = true
  · exact ⟨_, execLoad_of_accepted h⟩
  · exact ⟨_, execLoad_of_not_accepted h⟩

theorem execRead_answers (n : Nat) (s : State) : ∃ t, execRead n s = .next t := by
  unfold execRead
  split
  · split
    · exact ⟨_, rfl⟩
    · exact ⟨_, rfl⟩
  · exact ⟨_, rfl⟩

/-- Settles O45: the instructions that read a buffer answer where its bytes are, by their own
lemmas; the others read none. -/
theorem instructionsReadOnlyBytesThatExist : Obligations.InstructionsReadOnlyBytesThatExist := by
  unfold Obligations.InstructionsReadOnlyBytesThatExist
  intro s inputExists payloadExists answers
  refine ⟨fun hinput => ⟨execDecode_answers hinput, fun _ _ => execChecksum7_answers _ _ hinput⟩,
    fun hpayload offset size factor => ?fields, ?others⟩
  case fields =>
    simp only [answers, exec_getRaw, exec_getTemperature, exec_getTime]
    exact ⟨fieldRead_answers _ _ _ _ hpayload, fieldRead_answers _ _ _ _ hpayload,
      fieldRead_answers _ _ _ _ hpayload⟩
  case others =>
    intro i hdecode hchecksum hraw htemperature htime
    cases i with
    | decode => exact absurd rfl hdecode
    | checksum7 offset length => exact absurd rfl (hchecksum offset length)
    | getRaw offset size => exact absurd rfl (hraw offset size)
    | getTemperature offset size factor => exact absurd rfl (htemperature offset size factor)
    | getTime offset size => exact absurd rfl (htime offset size)
    | septetRestore data septet =>
      simp only [answers, exec_septetRestore]
      exact acceptCommand_answers fun _ => ⟨_, rfl⟩
    | septetEncode data =>
      simp only [answers, exec_septetEncode]
      exact acceptCommand_answers fun _ => ⟨_, rfl⟩
    | reservedOp0 | reservedOpE | reservedOpF => exact acceptCommand_answers fun _ => ⟨_, rfl⟩
    | getDest | getSrc | getProto | getCmd | getFcnt | getHchk => exact headerRead_answers s _
    | load bytes => exact execLoad_answers bytes s
    | read n => exact execRead_answers n s
    | reset => exact ⟨_, rfl⟩

/-- The bytes the instructions read are there in every state of the invariant. -/
theorem exec_answers_of_inv {s : State} (hs : s.Inv) (i : Instr) : ∃ t, exec i s = .next t := by
  obtain ⟨hinput, hpayload, hothers⟩ := instructionsReadOnlyBytesThatExist s
  have hdecode := hinput fun a => (hs.input.1.2 a).2
  have hfields := hpayload fun p hp a => ((hs.packet p hp).pay.2 a).2
  cases i with
  | decode => exact hdecode.1
  | checksum7 offset length => exact hdecode.2 offset length
  | getRaw offset size => exact (hfields offset size 0).1
  | getTemperature offset size factor => exact (hfields offset size factor).2.1
  | getTime offset size => exact (hfields offset size 0).2.2
  | _ => exact hothers _ nofun nofun nofun nofun nofun

/-- Progress and preservation: a step of the invariant answers a state of it, without the
transaction taken. -/
theorem step_answers_of_inv {s : State} (hs : s.Inv) :
    ∃ t, step s = .next t ∧ t.Inv ∧ t.pending = s.pending.tail := by
  cases hp : s.pending with
  | nil => exact ⟨s, step_of_no_pending hp, hs, hp⟩
  | cons tr rest =>
    obtain ⟨i, hstep, _⟩ := step_eq_exec hp
    have hrest := hs.withPending rest
    obtain ⟨t, ht⟩ := exec_answers_of_inv hrest i
    exact ⟨t, hstep.trans ht, exec_keeps_inv i _ t hrest ht, (exec_effect ht).pending_eq⟩

/-- Settles O53: `step_answers_of_inv`. -/
theorem stepAlwaysAnswersFromTheInvariant : Obligations.StepAlwaysAnswersFromTheInvariant := by
  unfold Obligations.StepAlwaysAnswersFromTheInvariant
  intro s hs
  obtain ⟨t, hstep, ht, _⟩ := step_answers_of_inv hs
  exact ⟨t, hstep, ht⟩

theorem core_run_succ {s t : State} (k : Nat) (h : step s = .next t) :
    Sys2Proof.core.run (k + 1) s = Sys2Proof.core.run k t := by
  have h' : Sys2Proof.core.step s = .next t := h
  simp only [Host.Core.run, h']

/-- A run from the invariant never stops and takes one transaction a step (R60). -/
theorem core_run_of_inv (k : Nat) {s : State} (hs : s.Inv) :
    ∃ u : State, Sys2Proof.core.run k s = .next u ∧ u.Inv ∧ u.pending = s.pending.drop k := by
  induction k generalizing s with
  | zero => exact ⟨s, rfl, hs, rfl⟩
  | succ k ih =>
    obtain ⟨t, hstep, ht, hpending⟩ := step_answers_of_inv hs
    obtain ⟨u, hrun, hu, hdrop⟩ := ih ht
    refine ⟨u, (core_run_succ k hstep).trans hrun, hu, ?_⟩
    rw [hdrop, hpending, List.drop_tail]

/-- Settles O54: `core_run_of_inv` from reset, whose invariant does not look at the host's list. -/
theorem everyHostScriptRunsToItsEnd : Obligations.EveryHostScriptRunsToItsEnd := by
  unfold Obligations.EveryHostScriptRunsToItsEnd
  intro ts
  have hreset := State.inv_reset ts
  obtain ⟨t, hrun, ht, hpending⟩ := core_run_of_inv ts.length hreset
  refine ⟨t, hrun, ?_, ht, fun k _ => ?_⟩
  · rw [hpending, State.withPending_pending, List.drop_length]
  · obtain ⟨u, hrun, _, hdrop⟩ := core_run_of_inv k hreset
    exact ⟨u, hrun, hdrop⟩

end Sys2Proof.Machine
end

section
/-! PROOF. The header accessors (41_header.md R130 to R135), the reads without a packet
(60_exceptions.md R262 cause 3), the reserved commands (30_encoding.md R85) and RESET
(70_reset_and_hazards.md R290). -/

namespace Sys2Proof.Machine

theorem headerRead_of_packet {s : State} {p : Packet} (hidle : s.busy = false)
    (hp : s.packet = some p) (field : Packet → DWord) :
    headerRead s field = .next (s.respond (.ok (field p))) := by
  simp only [headerRead, acceptCommand_idle hidle, hp, returnOk]

theorem headerRead_of_no_packet {s : State} (hidle : s.busy = false) (hp : s.packet = none)
    (field : Packet → DWord) :
    headerRead s field = .next (s.markRefused.respond .refused) := by
  simp only [headerRead, acceptCommand_idle hidle, hp, refuseCommand]

/-- The packet is looked at before the operands (R224). -/
theorem fieldRead_of_no_packet {s : State} (hidle : s.busy = false) (hp : s.packet = none)
    (offset size : Word) (admitted : Bool) (result : Nat → Response) :
    fieldRead s offset size admitted result = .next (s.markRefused.respond .refused) := by
  simp only [fieldRead, acceptCommand_idle hidle, hp, refuseCommand]

/-- Settles O16: the six accessors are one `headerRead`. -/
theorem headerAccessorsReadThePacket : Obligations.HeaderAccessorsReadThePacket := by
  unfold Obligations.HeaderAccessorsReadThePacket
  intro s p hidle hp answers
  have hread := headerRead_of_packet hidle hp
  exact ⟨hread _, hread _, hread _, hread _, hread _, hread _⟩

/-- Settles O17: the nine reads are `headerRead` or `fieldRead`, and both look for a packet first.
-/
theorem packetReadsNeedAPacket : Obligations.PacketReadsNeedAPacket := by
  unfold Obligations.PacketReadsNeedAPacket
  intro s offset size factor hidle hp
  have hheader := headerRead_of_no_packet hidle hp
  have hfield := fieldRead_of_no_packet hidle hp offset size
  simp only [List.forall_mem_cons, List.not_mem_nil, false_implies, implies_true, and_true,
    exec_getRaw, exec_getTemperature, exec_getTime]
  exact ⟨hheader _, hheader _, hheader _, hheader _, hheader _, hheader _, hfield _ _, hfield _ _,
    hfield _ _⟩

theorem exec_reserved {s : State} (hidle : s.busy = false) :
    ∀ i ∈ [Instr.reservedOp0, .reservedOpE, .reservedOpF],
      exec i s = .next (s.markRefused.respond .refused) := by
  have hrefuse : acceptCommand s refuseCommand = .next (s.markRefused.respond .refused) :=
    acceptCommand_idle hidle
  simp only [List.forall_mem_cons, List.not_mem_nil, false_implies, implies_true, and_true]
  exact ⟨hrefuse, hrefuse, hrefuse⟩

/-- The three reserved words decode to the three reserved instructions, whatever the operands. -/
theorem decode_reserved (a b : Word) (f : DWord) :
    ∀ cw ∈ [0x0#32, 0xE#32, 0xF#32], ∃ i ∈ [Instr.reservedOp0, .reservedOpE, .reservedOpF],
      decode (.command ⟨cw, a, b, f⟩) = .ok i := by
  simp only [List.forall_mem_cons, List.not_mem_nil, false_implies, implies_true, and_true]
  exact ⟨⟨.reservedOp0, by simp, rfl⟩, ⟨.reservedOpE, by simp, rfl⟩, ⟨.reservedOpF, by simp, rfl⟩⟩

/-- Settles O43: `decode_reserved` and `exec_reserved`. -/
theorem reservedOpsAreRefused : Obligations.ReservedOpsAreRefused := by
  unfold Obligations.ReservedOpsAreRefused
  intro s hidle cw hcw a b f rest
  obtain ⟨i, hi, hdecode⟩ := decode_reserved a b f cw hcw
  have hidle' : (s.withPending rest).busy = false := hidle
  exact ⟨(step_of_decode_ok rfl hdecode).trans (exec_reserved hidle' i hi), exec_reserved hidle⟩

/-- Settles O41: RESET looks at nothing of the state but the host's list. -/
theorem resetIsAcceptedAtAnyTime : Obligations.ResetIsAcceptedAtAnyTime := by
  unfold Obligations.ResetIsAcceptedAtAnyTime
  exact fun _ => rfl

/-- Settles O42: the fields of `State.reset`. -/
theorem resetValues : Obligations.ResetValues := by
  unfold Obligations.ResetValues
  exact ⟨State.reset_len, Memory.read_nil, rfl, State.reset_refused, State.reset_busy,
    State.flags_eq_zero rfl rfl rfl, State.reset_packet, rfl⟩

end Sys2Proof.Machine
end

section
/-! PROOF. The read map (10_state.md R31): READ answers the value of a register, or is refused where
there is none. -/

namespace Sys2Proof.Machine

theorem exec_read_of_value {s : State} {n : Nat} {v : Word} (hidle : s.busy = false)
    (hv : s.registerValue n = some v) : exec (.read n) s = .next (s.withReadPort (some v)) := by
  simp only [exec, execRead, State.readAllowed, hidle, Bool.not_false, Bool.true_or, if_true, hv]

theorem exec_read_of_no_value {s : State} {n : Nat} (hidle : s.busy = false)
    (hv : s.registerValue n = none) :
    exec (.read n) s = .next (s.withReadPort none).markRefused := by
  simp only [exec, execRead, State.readAllowed, hidle, Bool.not_false, Bool.true_or, if_true, hv,
    refuseTransaction]

/-- The numbers from 0xB on: the bytes of TS at 0x10..0x24, and no other register. -/
theorem State.registerValue_add (s : State) (k : Nat) :
    s.registerValue (k + 0xB) =
      if 0x10 ≤ k + 0xB ∧ k + 0xB ≤ 0x24 then s.tsByte (k + 0xB - 0x10) else none := rfl

theorem State.registerValue_ts (s : State) {j : Nat} (hj : j ≤ 20) :
    s.registerValue (0x10 + j) = s.tsByte j := by
  rw [show 0x10 + j = (j + 5) + 0xB by omega, State.registerValue_add, if_pos (by omega)]
  rfl

theorem State.registerValue_reserved (s : State) {n : Nat}
    (hn : (0xB ≤ n ∧ n ≤ 0xF) ∨ 0x24 < n) : s.registerValue n = none := by
  obtain ⟨k, rfl⟩ := Nat.exists_eq_add_of_le' (show 0xB ≤ n by omega)
  rw [State.registerValue_add, if_neg (by omega)]

theorem State.tsByte_of_some {s : State} {text : List Byte} (h : s.resp.ts = some text) (j : Nat) :
    s.tsByte j = text[j]?.map (fun b => b.setWidth 32) := by
  rw [State.tsByte, h]

theorem State.tsByte_of_none {s : State} (h : s.resp.ts = none) (j : Nat) : s.tsByte j = none := by
  rw [State.tsByte, h]

/-- Settles O39: each clause is the read map's value of its number. -/
theorem readFollowsTheRegisterMap : Obligations.ReadFollowsTheRegisterMap := by
  unfold Obligations.ReadFollowsTheRegisterMap
  intro s hidle answers refuses word dword
  have hanswers : ∀ n v, s.registerValue n = some v → answers n v :=
    fun _ _ => exec_read_of_value hidle
  have hrefuses : ∀ n, s.registerValue n = none → refuses n :=
    fun _ => exec_read_of_no_value hidle
  have hword : ∀ n r, s.registerValue n = r → word n r :=
    fun n _ hr => ⟨fun v hv => hanswers n v (hr.trans hv), fun hv => hrefuses n (hr.trans hv)⟩
  have hdword : ∀ n r, s.registerValue n = r.map lowWord →
      s.registerValue (n + 1) = r.map highWord → dword n r := by
    intro n r hlow hhigh
    refine ⟨fun v hv => ?value, fun hv => ?empty⟩ <;> rw [hv] at hlow hhigh
    case value => exact ⟨hanswers n _ hlow, hanswers (n + 1) _ hhigh⟩
    case empty => exact ⟨hrefuses n hlow, hrefuses (n + 1) hhigh⟩
  refine ⟨fun v hv => hanswers 0x0 _ (congrArg (Option.map _) hv),
    fun hv => hrefuses 0x0 (congrArg (Option.map _) hv), hword 0x1 _ rfl, hword 0x2 _ rfl,
    hword 0x3 _ rfl, hdword 0x4 _ rfl rfl, hdword 0x6 _ rfl rfl, hanswers 0x8 _ rfl,
    hanswers 0x9 _ rfl, fun text htext => ⟨hanswers 0xA _ (congrArg (Option.map _) htext),
      fun j hj => ⟨fun b hb => ?byte, fun hpast => ?past⟩⟩,
    fun hts => ⟨hrefuses 0xA (congrArg (Option.map _) hts), fun j hj => ?noText⟩,
    fun n hn => hrefuses n (s.registerValue_reserved hn)⟩
  case byte =>
    refine hanswers _ _ ?_
    rw [s.registerValue_ts hj, State.tsByte_of_some htext, hb, Option.map_some]
  case past =>
    refine hrefuses _ ?_
    rw [s.registerValue_ts hj, State.tsByte_of_some htext, List.getElem?_eq_none hpast,
      Option.map_none]
  case noText => exact hrefuses _ ((s.registerValue_ts hj).trans (State.tsByte_of_none hts j))

end Sys2Proof.Machine
end

section
/-! PROOF. BUSY = 1 (60_exceptions.md R262 causes 7 and 9; 70_reset_and_hazards.md R296): every
command and every LOAD is turned away, and so is every READ but of LEN and FLAGS. -/

namespace Sys2Proof.Machine

/-- An instruction that is accepted or turned away before anything of it is looked at (R296), and
does not look at the response registers an earlier command left (R29). -/
def RunsWhenAccepted (execI : State → StepResult) : Prop :=
  ∃ run : State → StepResult,
    (∀ s, execI s = acceptCommand s run) ∧ ∀ s r, run (s.respond r) = run s

theorem headerRead_runsWhenAccepted (field : Packet → DWord) :
    RunsWhenAccepted (fun s => headerRead s field) :=
  ⟨_, fun s => by beta_reduce; rw [headerRead], fun _ _ => rfl⟩

theorem fieldRead_runsWhenAccepted (offset size : Word) (admitted : Bool)
    (result : Nat → Response) :
    RunsWhenAccepted (fun s => fieldRead s offset size admitted result) :=
  ⟨_, fun s => by beta_reduce; rw [fieldRead], fun _ _ => rfl⟩

theorem exec_command_runsWhenAccepted {i : Instr} (hcommand : i.isCommand = true) :
    RunsWhenAccepted (exec i) := by
  cases i with
  | decode => exact ⟨_, fun s => by rw [exec, execDecode], fun _ _ => rfl⟩
  | getRaw offset size =>
    rw [funext (exec_getRaw offset size)]
    exact fieldRead_runsWhenAccepted _ _ _ _
  | getTemperature offset size factor =>
    rw [funext (exec_getTemperature offset size factor)]
    exact fieldRead_runsWhenAccepted _ _ _ _
  | getTime offset size =>
    rw [funext (exec_getTime offset size)]
    exact fieldRead_runsWhenAccepted _ _ _ _
  | checksum7 => exact ⟨_, fun s => by rw [exec, execChecksum7], fun _ _ => rfl⟩
  | septetRestore => exact ⟨_, exec_septetRestore _ _, fun _ _ => rfl⟩
  | septetEncode => exact ⟨_, exec_septetEncode _, fun _ _ => rfl⟩
  | getDest | getSrc | getProto | getCmd | getFcnt | getHchk => exact headerRead_runsWhenAccepted _
  | reservedOp0 | reservedOpE | reservedOpF => exact ⟨refuseCommand, fun _ => rfl, fun _ _ => rfl⟩
  | load | read | reset => exact absurd hcommand Bool.false_ne_true

theorem exec_command_of_busy {s : State} {i : Instr} (hbusy : s.busy = true)
    (hcommand : i.isCommand = true) : exec i s = .next s.markRefused := by
  obtain ⟨run, hrun, _⟩ := exec_command_runsWhenAccepted hcommand
  rw [hrun, acceptCommand_busy hbusy]

theorem step_command_of_busy {s : State} {c : CommandFields} {rest : List Transaction}
    (hbusy : s.busy = true) (hp : s.pending = .command c :: rest) :
    step s = .next (s.withPending rest).markRefused := by
  obtain ⟨i, hstep, hi⟩ := step_eq_exec hp
  have hcommand : i.isCommand = true := by
    rcases hi with hi | rfl
    · exact ((decodedCommandKeepsItsWord c).2 i hi).1
    · rfl
  exact hstep.trans (exec_command_of_busy hbusy hcommand)

theorem exec_load_of_busy {s : State} (hbusy : s.busy = true) (bytes : List Byte) :
    exec (.load bytes) s = .next s.markRefused :=
  execLoad_of_not_accepted (by simp [loadAccepted, hbusy])

theorem exec_read_of_busy {s : State} {n : Nat} (hbusy : s.busy = true) (hlen : n ≠ 0x8)
    (hflags : n ≠ 0x9) : exec (.read n) s = .next (s.withReadPort none).markRefused := by
  simp [exec, execRead, State.readAllowed, hbusy, hlen, hflags, refuseTransaction]

/-- Settles O44: the lemmas of the three kinds of transaction; LEN and FLAGS are the two numbers
`State.readAllowed` names. -/
theorem busyTurnsTransactionsAway : Obligations.BusyTurnsTransactionsAway := by
  unfold Obligations.BusyTurnsTransactionsAway
  intro s hbusy
  refine ⟨fun _ => exec_command_of_busy hbusy,
    fun c rest => step_command_of_busy (s := { s with pending := .command c :: rest }) hbusy rfl,
    exec_load_of_busy hbusy, fun _ => exec_read_of_busy hbusy, ?len, ?flags⟩
  case len => simp [exec, execRead, State.readAllowed, State.registerValue, State.withReadPort]
  case flags => simp [exec, execRead, State.readAllowed, State.registerValue, State.withReadPort]

end Sys2Proof.Machine
end

section
/-! PROOF. A command does not see the response registers an earlier one left (10_state.md R29): what
it answers replaces all of them. -/

namespace Sys2Proof.Machine

theorem exec_command_respond {s : State} (hidle : s.busy = false) (r : Response) {i : Instr}
    (hcommand : i.isCommand = true) : exec i (s.respond r) = exec i s := by
  obtain ⟨run, hrun, hrespond⟩ := exec_command_runsWhenAccepted hcommand
  have hidle' : (s.respond r).busy = false := hidle
  rw [hrun, hrun, acceptCommand_idle hidle, acceptCommand_idle hidle', hrespond]

/-- Settles O46: by `exec_command_respond` the answer is the same. -/
theorem commandsReplaceEveryResponseRegister :
    Obligations.CommandsReplaceEveryResponseRegister := by
  unfold Obligations.CommandsReplaceEveryResponseRegister
  intro i s t r hcommand hidle h
  exact (exec_command_respond hidle r hcommand).trans h

end Sys2Proof.Machine
end

section
/-! PROOF. The checksum engine (40_checksum.md R100 to R106): the checksum is fixed by the sum of
the bytes mod 128, and the spec's inferences are facts about that sum. -/

namespace Sys2Proof.Machine

/-- The sum of the bytes of a sequence. -/
def byteSum (bytes : List Byte) : Nat := (bytes.map (fun b => b.toNat)).sum

@[simp] theorem byteSum_nil : byteSum [] = 0 := rfl

@[simp] theorem byteSum_cons (b : Byte) (bs : List Byte) :
    byteSum (b :: bs) = b.toNat + byteSum bs := by
  simp [byteSum]

@[simp] theorem byteSum_append (bs bs' : List Byte) :
    byteSum (bs ++ bs') = byteSum bs + byteSum bs' := by
  simp [byteSum]

/-- Subtracting byte by byte mod 128 subtracts the sum mod 128. -/
theorem foldl_checksumStep {crc : Int} (hcrc : crc % 128 = crc) (bytes : List Byte) :
    bytes.foldl checksumStep crc = (crc - byteSum bytes) % 128 := by
  induction bytes generalizing crc with
  | nil => simpa using hcrc.symm
  | cons b bs ih =>
    have hstep : checksumStep crc b = (crc - b.toNat) % 128 := rfl
    rw [List.foldl_cons, hstep, ih (Int.emod_emod _ _), byteSum_cons]
    omega

theorem checksumOf_eq (bytes : List Byte) :
    (checksumOf bytes : Int) = (0x7F - (byteSum bytes : Int)) % 128 := by
  have hfold : bytes.foldl checksumStep Config.ckInit = (0x7F - (byteSum bytes : Int)) % 128 :=
    foldl_checksumStep (by decide) bytes
  rw [checksumOf, hfold]
  omega

theorem checksumOf_le (bytes : List Byte) : checksumOf bytes ≤ 0x7F := by
  have h := checksumOf_eq bytes
  omega

theorem checksumOf_eq_iff {bytes bytes' : List Byte} :
    checksumOf bytes = checksumOf bytes' ↔ byteSum bytes % 128 = byteSum bytes' % 128 := by
  have h := checksumOf_eq bytes
  have h' := checksumOf_eq bytes'
  omega

/-- Settles O8: `checksumOf_eq` and `checksumOf_le`. -/
theorem checksumClosedForm : Obligations.ChecksumClosedForm := by
  unfold Obligations.ChecksumClosedForm
  intro bytes
  refine ⟨?_, checksumOf_le bytes⟩
  rw [checksumOf_eq, byteSum, Nat.cast_list_sum, List.map_map]
  rfl

/-- One more byte of a buffer in a slice. -/
theorem slice_succ {buf : List Byte} {offset length : Nat} (h : offset + length < buf.length) :
    slice buf offset (length + 1) = slice buf offset length ++ [byteAt buf (offset + length)] := by
  have hlength : length < (buf.drop offset).length := by
    rw [List.length_drop]
    omega
  rw [slice, slice, List.take_succ_eq_append_getElem hlength, List.getElem_drop,
    byteAt_eq_getElem h]

/-- Settles O7: a byte more in the slice is a byte more in the sum. -/
theorem checksumSubtractsEachByte : Obligations.ChecksumSubtractsEachByte := by
  unfold Obligations.ChecksumSubtractsEachByte
  intro buf offset length
  refine ⟨rfl, fun hin => ?_⟩
  rw [checksum7, checksum7, checksumOf_eq, checksumOf_eq, slice_succ hin, byteSum_append,
    byteSum_cons, byteSum_nil]
  omega

/-- Clearing bit 7 of a byte takes it mod 128. -/
theorem toNat_and_0x7F (b : Byte) : (b &&& 0x7F#8).toNat = b.toNat % 128 := by
  rw [BitVec.toNat_and]
  exact Nat.and_two_pow_sub_one_eq_mod b.toNat 7

theorem and_0x7F_eq_iff {x y : Byte} :
    x &&& 0x7F#8 = y &&& 0x7F#8 ↔ x.toNat % 128 = y.toNat % 128 := by
  rw [← BitVec.toNat_inj, toNat_and_0x7F, toNat_and_0x7F]

theorem byteSum_map_and_0x7F (bytes : List Byte) :
    byteSum (bytes.map (fun b => b &&& 0x7F#8)) % 128 = byteSum bytes % 128 := by
  induction bytes with
  | nil => rfl
  | cons b bs ih =>
    rw [List.map_cons, byteSum_cons, byteSum_cons, toNat_and_0x7F]
    omega

/-- Replacing one byte keeps the checksum exactly when it keeps the byte's low seven bits. -/
theorem checksumOf_replace_iff (before after : List Byte) (x y : Byte) :
    checksumOf (before ++ x :: after) = checksumOf (before ++ y :: after) ↔
      x &&& 0x7F#8 = y &&& 0x7F#8 := by
  rw [checksumOf_eq_iff, and_0x7F_eq_iff, byteSum_append, byteSum_append, byteSum_cons,
    byteSum_cons]
  omega

/-- Settles O9: the checksum is fixed by the sum mod 128, and bit 7 of a byte is worth 128. -/
theorem checksumSeesExactlyTheLowSevenBits : Obligations.ChecksumSeesExactlyTheLowSevenBits := by
  unfold Obligations.ChecksumSeesExactlyTheLowSevenBits
  exact ⟨fun bytes => checksumOf_eq_iff.2 (byteSum_map_and_0x7F bytes), checksumOf_replace_iff⟩

/-- Settles O10: a permutation keeps the sum. -/
theorem checksumIgnoresOrder : Obligations.ChecksumIgnoresOrder := by
  unfold Obligations.ChecksumIgnoresOrder
  intro bytes bytes' hperm
  have hsum : byteSum bytes = byteSum bytes' := (hperm.map _).sum_eq
  exact checksumOf_eq_iff.2 (congrArg (· % 128) hsum)

theorem exec_checksum7_in_range {s : State} {offset length : Word} {bytes : List Byte}
    (hidle : s.busy = false) (hrange : offset.toNat + length.toNat ≤ s.len.toNat)
    (hbytes : Memory.readRange s.ibuf offset.toNat length.toNat = some bytes) :
    exec (.checksum7 offset length) s =
      .next (s.respond (.ok (BitVec.ofNat 64 (checksumOf bytes)))) := by
  simp only [exec, execChecksum7, acceptCommand_idle hidle, if_neg (Nat.not_lt.2 hrange), hbytes,
    returnOk]

theorem exec_checksum7_out_of_range {s : State} {offset length : Word} (hidle : s.busy = false)
    (hrange : s.len.toNat < offset.toNat + length.toNat) :
    exec (.checksum7 offset length) s = .next (s.markRefused.respond .refused) := by
  simp only [exec, execChecksum7, acceptCommand_idle hidle, if_pos hrange, refuseCommand]

/-- Settles O11: the two outcomes of CHECKSUM7; in range the bytes are there. -/
theorem checksum7CommandResult : Obligations.Checksum7CommandResult := by
  unfold Obligations.Checksum7CommandResult
  intro s offset length hidle hholds
  refine ⟨fun hrange => ?_, exec_checksum7_out_of_range hidle⟩
  obtain ⟨bytes, hbytes⟩ := Memory.readRange_of_holds hholds hrange
  obtain ⟨hlength, hread⟩ := Memory.readRange_eq_some.1 hbytes
  exact ⟨bytes, hlength, hread, exec_checksum7_in_range hidle hrange hbytes⟩

end Sys2Proof.Machine
end

section
/-! PROOF. The septet codec (43_septet.md R170 to R177), lane by lane: a lane is one of the four
bytes of a block, and its septet bit is the bit of the lane's number. -/

namespace Sys2Proof.Machine

/-- Byte `j` of a block, 0 past the last. -/
def Block.lane (b : Block) : Nat → Byte
  | 0 => b.b0
  | 1 => b.b1
  | 2 => b.b2
  | 3 => b.b3
  | _ => 0

theorem Block.lane_of_four_le (b : Block) {j : Nat} (h : 4 ≤ j) : b.lane j = 0#8 := by
  obtain ⟨k, rfl⟩ := Nat.exists_eq_add_of_le' h
  rfl

theorem Block.ext_lane {b c : Block} (h : ∀ j, j < 4 → b.lane j = c.lane j) : b = c := by
  cases b
  cases c
  exact Block.mk.injEq .. ▸
    ⟨h 0 (by decide), h 1 (by decide), h 2 (by decide), h 3 (by decide)⟩

/-- Lane `j` of an operand is its bits 8j..8j+7 (R83). -/
theorem Block.lane_ofWord (a : Word) {j : Nat} (hj : j < 4) :
    (Block.ofWord a).lane j = a.extractLsb' (8 * j) 8 := by
  match j, hj with
  | 0, _ | 1, _ | 2, _ | 3, _ => rfl

/-- Bits 8j..8j+7 of a result are its lane `j` (R86). -/
theorem Block.getLsbD_toWord (b : Block) {j k : Nat} (hj : j < 4) (hk : k < 8) :
    b.toWord.getLsbD (8 * j + k) = (b.lane j).getLsbD k := by
  change BitVec.getLsbD (w := 8 + 8 + 8 + 8) (b.b3 ++ b.b2 ++ b.b1 ++ b.b0) (8 * j + k) = _
  rw [BitVec.getLsbD_append, BitVec.getLsbD_append, BitVec.getLsbD_append]
  match j, hj with
  | 0, _ => simp [hk, Block.lane]
  | 1, _ => simp [hk, Block.lane]
  | 2, _ => simp [hk, Block.lane, show ¬ 16 + k < 8 by omega, show ¬ 16 + k - 8 < 8 by omega,
      show 16 + k - 8 - 8 = k by omega]
  | 3, _ => simp [hk, Block.lane, show ¬ 24 + k < 8 by omega, show ¬ 24 + k - 8 < 8 by omega,
      show ¬ 24 + k - 8 - 8 < 8 by omega, show 24 + k - 8 - 8 - 8 = k by omega]

theorem lane_septetRestore (d : Block) (s : Byte) {j : Nat} (hj : j < 4) :
    (septetRestore d s).lane j = restoreLane (d.lane j) s j := by
  match j, hj with
  | 0, _ | 1, _ | 2, _ | 3, _ => rfl

theorem lane_septetEncode (b : Block) {j : Nat} (hj : j < 4) :
    (septetEncode b).1.lane j = b.lane j &&& 0x7F#8 := by
  match j, hj with
  | 0, _ | 1, _ | 2, _ | 3, _ => rfl

/-- A stripped bit stands at its lane's number and nowhere else (R172). -/
theorem getLsbD_strippedBit (b : Byte) {j n : Nat} (hn : n < 8) :
    (strippedBit b j).getLsbD n = (decide (n = j) && b.getLsbD 7) := by
  rw [strippedBit, BitVec.getLsbD_shiftLeft, BitVec.getLsbD_ushiftRight]
  rcases Nat.lt_trichotomy n j with h | rfl | h
  · simp [h, Nat.ne_of_lt h]
  · simp [hn]
  · rw [BitVec.getLsbD_of_ge b (7 + (n - j)) (by omega)]
    simp [Nat.ne_of_gt h]

/-- Septet bit `j` is bit 7 of lane `j`, and 0 past the last lane (R172). -/
theorem getLsbD_septetEncode (b : Block) (j : Nat) :
    (septetEncode b).2.getLsbD j = (b.lane j).getLsbD 7 := by
  rcases Nat.lt_or_ge j 8 with hj | hj
  · simp only [septetEncode, BitVec.getLsbD_or, getLsbD_strippedBit _ hj]
    match j with
    | 0 | 1 | 2 | 3 => simp [Block.lane]
    | k + 4 => simp [Block.lane]
  · rw [BitVec.getLsbD_of_ge _ _ hj, b.lane_of_four_le (by omega)]
    rfl

theorem getLsbD_and_0x7F (b : Byte) {n : Nat} (hn : n < 8) :
    (b &&& 0x7F#8).getLsbD n = (b.getLsbD n && decide (n ≠ 7)) := by
  have hmask : ∀ n : Fin 8, (0x7F#8).getLsbD n = decide (n.val ≠ 7) := by decide
  rw [BitVec.getLsbD_and, hmask ⟨n, hn⟩]

theorem getLsbD_restoreLane (d s : Byte) (j : Nat) {n : Nat} (hn : n < 8) :
    (restoreLane d s j).getLsbD n = (d.getLsbD n || (decide (n = 7) && s.getLsbD j)) := by
  have hmask : ∀ n : Fin 8, (0x80#8).getLsbD n = decide (n.val = 7) := by decide
  rw [restoreLane, BitVec.getLsbD_or]
  cases s.getLsbD j
  · simp
  · simp [hmask ⟨n, hn⟩]

/-- Settles O12: in each lane bit 7 goes to the septet bit and comes back from it; the septet byte
has no bit past the last lane. -/
theorem septetEncodeThenRestore : Obligations.SeptetEncodeThenRestore := by
  unfold Obligations.SeptetEncodeThenRestore
  refine fun b => ⟨Block.ext_lane fun j hj => ?lane, ?septet⟩
  case lane =>
    apply BitVec.eq_of_getLsbD_eq
    intro n hn
    rw [lane_septetRestore _ _ hj, getLsbD_restoreLane _ _ _ hn, lane_septetEncode b hj,
      getLsbD_and_0x7F _ hn, getLsbD_septetEncode]
    by_cases h : n = 7
    · simp [h]
    · simp [h]
  case septet =>
    refine Nat.le_of_lt_succ (Nat.lt_pow_two_of_testBit (n := 4) _ fun j hj => ?_)
    rw [BitVec.testBit_toNat, getLsbD_septetEncode, b.lane_of_four_le hj]
    rfl

/-- Settles O13: a lane below 0x80 has no bit 7 of its own, so the septet bit comes back alone. -/
theorem septetRestoreThenEncode : Obligations.SeptetRestoreThenEncode := by
  unfold Obligations.SeptetRestoreThenEncode
  intro d s h0 h1 h2 h3
  have hclear : ∀ j, j < 4 → (d.lane j).getLsbD 7 = false := fun j hj =>
    match j, hj with
    | 0, _ => getLsbD_seven_of_le h0
    | 1, _ => getLsbD_seven_of_le h1
    | 2, _ => getLsbD_seven_of_le h2
    | 3, _ => getLsbD_seven_of_le h3
  refine Prod.ext (Block.ext_lane fun j hj => ?lane) ?septet
  case lane =>
    apply BitVec.eq_of_getLsbD_eq
    intro n hn
    rw [lane_septetEncode _ hj, getLsbD_and_0x7F _ hn, lane_septetRestore _ _ hj,
      getLsbD_restoreLane _ _ _ hn]
    by_cases h : n = 7
    · rw [h, hclear j hj]
      simp
    · simp [h]
  case septet =>
    have hmask : ∀ j : Fin 8, (0x0F#8).getLsbD j = decide (j.val < 4) := by decide
    apply BitVec.eq_of_getLsbD_eq
    intro j hj
    rw [getLsbD_septetEncode, BitVec.getLsbD_and, hmask ⟨j, hj⟩]
    rcases Nat.lt_or_ge j 4 with hlane | hlane
    · rw [lane_septetRestore _ _ hlane, getLsbD_restoreLane _ _ _ (by decide), hclear j hlane]
      simp [hlane]
    · rw [Block.lane_of_four_le _ hlane]
      simp [Nat.not_lt.2 hlane]

/-- Bit `8j + k` of a result in R0, and the zeros of R0[63:32] (R86). -/
theorem getLsbD_toWord_setWidth (b : Block) (n : Nat) :
    (b.toWord.setWidth 64).getLsbD n = (decide (n < 32) && (b.lane (n / 8)).getLsbD (n % 8)) := by
  rw [BitVec.getLsbD_setWidth]
  rcases Nat.lt_or_ge n 32 with hn | hn
  · have hbit := b.getLsbD_toWord (j := n / 8) (k := n % 8) (by omega) (by omega)
    rw [Nat.div_add_mod] at hbit
    rw [hbit]
    simp [hn, show n < 64 by omega]
  · simp [BitVec.getLsbD_of_ge b.toWord n hn, Nat.not_lt.2 hn]

/-- Bit `n` of an operand is a bit of its lane `n / 8` (R83). -/
theorem getLsbD_lane_ofWord (a : Word) {n : Nat} (hn : n < 32) :
    ((Block.ofWord a).lane (n / 8)).getLsbD (n % 8) = a.getLsbD n := by
  rw [Block.lane_ofWord a (by omega), BitVec.getLsbD_extractLsb', Nat.div_add_mod]
  simp [Nat.mod_lt]

/-- Settles O14: the bits of R0 are those of the restored lanes. -/
theorem septetRestoreCommandResult : Obligations.SeptetRestoreCommandResult := by
  unfold Obligations.SeptetRestoreCommandResult
  intro s data septet hidle
  refine ⟨_, (exec_septetRestore data septet s).trans (acceptCommand_idle hidle), fun n => ?_⟩
  rw [getLsbD_toWord_setWidth]
  rcases Nat.lt_or_ge n 32 with hn | hn
  · rw [lane_septetRestore _ _ (by omega), getLsbD_restoreLane _ _ _ (Nat.mod_lt n (by decide)),
      getLsbD_lane_ofWord data hn]
    simp [hn]
  · simp [BitVec.getLsbD_of_ge data n hn, Nat.not_lt.2 hn]

/-- Settles O15: the bits of R0 are those of the stripped lanes, and R1 is the septet byte. -/
theorem septetEncodeCommandResult : Obligations.SeptetEncodeCommandResult := by
  unfold Obligations.SeptetEncodeCommandResult
  intro s data hidle
  refine ⟨_, _, (exec_septetEncode data s).trans (acceptCommand_idle hidle), fun n => ?r0,
    fun j => ?r1⟩
  case r0 =>
    rw [getLsbD_toWord_setWidth]
    rcases Nat.lt_or_ge n 32 with hn | hn
    · rw [lane_septetEncode _ (by omega), getLsbD_and_0x7F _ (Nat.mod_lt n (by decide)),
        getLsbD_lane_ofWord data hn]
      simp [hn]
    · simp [BitVec.getLsbD_of_ge data n hn, Nat.not_lt.2 hn]
  case r1 =>
    rw [BitVec.getLsbD_setWidth, getLsbD_septetEncode]
    rcases Nat.lt_or_ge j 4 with hj | hj
    · rw [Block.lane_ofWord data hj, BitVec.getLsbD_extractLsb']
      simp [hj, show j < 64 by omega]
    · rw [Block.lane_of_four_le _ hj]
      simp [Nat.not_lt.2 hj]

end Sys2Proof.Machine
end

section
/-! PROOF. DECODE from the outside (44_frame_decoder.md R200 to R207; 41_header.md R120 to R127):
the header's steps one by one, the telegrams that are accepted, and how DECODE ends on each. -/

namespace Sys2Proof.Machine

section
variable {buf : List Byte}

theorem parseHeader_of_bad_sync (h : buf.length = 0 ∨ byteAt buf 0 ≠ 0xAA#8) :
    parseHeader buf = .error .syncByteMismatch :=
  if_pos h

/-- Behind the sync byte, the next step is the length of the fields read first (R122). -/
theorem parseHeader_of_sync (hlen : 1 ≤ buf.length) (hsync : byteAt buf 0 = 0xAA#8) :
    parseHeader buf =
      if buf.length < 6 then .error (.headerTooShort buf.length)
      else if byteAt buf 5 ≠ 0x10#8 then .error (.unsupportedProtocol (byteAt buf 5))
      else if buf.length < 10 then .error (.headerTooShort buf.length)
      else if checksum7 buf 1 8 ≠ (byteAt buf 9).toNat then
        .error (.headerChecksumMismatch (checksum7 buf 1 8) (byteAt buf 9))
      else if buf.length ≠ 10 + 6 * (byteAt buf 8).toNat then
        .error (.lengthMismatch (10 + 6 * (byteAt buf 8).toNat) buf.length)
      else .ok (headerFields buf) := by
  have hpassed : ¬ (buf.length = 0 ∨ byteAt buf 0 ≠ Config.sync) := by
    rintro (h | h)
    · omega
    · exact h hsync
  have hproto : byteAt buf 5 ∉ Config.protoSupported ↔ byteAt buf 5 ≠ 0x10#8 :=
    not_congr List.mem_singleton
  rw [parseHeader, if_neg hpassed]
  simp only [hproto]
  rfl

theorem parseHeader_of_short (hlen : 1 ≤ buf.length) (hsync : byteAt buf 0 = 0xAA#8)
    (h : buf.length < 6) : parseHeader buf = .error (.headerTooShort buf.length) := by
  rw [parseHeader_of_sync hlen hsync, if_pos h]

theorem parseHeader_of_protocol (hlen : 6 ≤ buf.length) (hsync : byteAt buf 0 = 0xAA#8)
    (h : byteAt buf 5 ≠ 0x10#8) :
    parseHeader buf = .error (.unsupportedProtocol (byteAt buf 5)) := by
  rw [parseHeader_of_sync (by omega) hsync, if_neg (by omega), if_pos h]

theorem parseHeader_of_short_of_protocol (hlen : 6 ≤ buf.length) (hsync : byteAt buf 0 = 0xAA#8)
    (hproto : byteAt buf 5 = 0x10#8) (h : buf.length < 10) :
    parseHeader buf = .error (.headerTooShort buf.length) := by
  rw [parseHeader_of_sync (by omega) hsync, if_neg (by omega), if_neg (not_not.2 hproto), if_pos h]

/-- The buffer passes the header's steps up to its checksum (R120, and condition 1 of R204). -/
def HeaderStarts (buf : List Byte) : Prop :=
  10 ≤ buf.length ∧ byteAt buf 0 = 0xAA#8 ∧ byteAt buf 5 = 0x10#8

theorem parseHeader_of_starts (hstarts : HeaderStarts buf) :
    parseHeader buf =
      if checksum7 buf 1 8 ≠ (byteAt buf 9).toNat then
        .error (.headerChecksumMismatch (checksum7 buf 1 8) (byteAt buf 9))
      else if buf.length ≠ 10 + 6 * (byteAt buf 8).toNat then
        .error (.lengthMismatch (10 + 6 * (byteAt buf 8).toNat) buf.length)
      else .ok (headerFields buf) := by
  obtain ⟨hlen, hsync, hproto⟩ := hstarts
  rw [parseHeader_of_sync (by omega) hsync, if_neg (by omega), if_neg (not_not.2 hproto),
    if_neg (by omega)]

theorem parseHeader_of_checksum (hstarts : HeaderStarts buf)
    (h : checksum7 buf 1 8 ≠ (byteAt buf 9).toNat) :
    parseHeader buf = .error (.headerChecksumMismatch (checksum7 buf 1 8) (byteAt buf 9)) := by
  rw [parseHeader_of_starts hstarts, if_pos h]

theorem parseHeader_of_length (hstarts : HeaderStarts buf)
    (hsum : checksum7 buf 1 8 = (byteAt buf 9).toNat)
    (h : buf.length ≠ 10 + 6 * (byteAt buf 8).toNat) :
    parseHeader buf = .error (.lengthMismatch (10 + 6 * (byteAt buf 8).toNat) buf.length) := by
  rw [parseHeader_of_starts hstarts, if_neg (not_not.2 hsum), if_pos h]

theorem parseHeader_of_passed (hstarts : HeaderStarts buf)
    (hsum : checksum7 buf 1 8 = (byteAt buf 9).toNat)
    (hlength : buf.length = 10 + 6 * (byteAt buf 8).toNat) :
    parseHeader buf = .ok (headerFields buf) := by
  rw [parseHeader_of_starts hstarts, if_neg (not_not.2 hsum), if_neg (not_not.2 hlength)]

/-- The header's error is the telegram's (R200). -/
theorem decodeTelegram_of_header_error {e : VBusError} (h : parseHeader buf = .error e) :
    decodeTelegram buf = .error e := by
  simp only [decodeTelegram, h]

end

/-- Settles O21: each clause is a step of the header, whose error is the telegram's. -/
theorem headerStepsFailInOrder : Obligations.HeaderStepsFailInOrder := by
  unfold Obligations.HeaderStepsFailInOrder
  intro s buf hready n ends
  have hends : ∀ e, parseHeader buf = .error e → ends (.ofError e) := fun e h =>
    exec_decode_of_error hready (decodeTelegram_of_header_error h)
  refine ⟨fun h => hends _ (parseHeader_of_bad_sync h), fun hn hsync =>
    ⟨fun h => hends _ (parseHeader_of_short hn hsync h), fun hn6 =>
      ⟨fun h => hends _ (parseHeader_of_protocol hn6 hsync h), fun hproto =>
        ⟨fun h => hends _ (parseHeader_of_short_of_protocol hn6 hsync hproto h), fun hn10 =>
          ⟨fun h => hends _ (parseHeader_of_checksum ⟨hn10, hsync, hproto⟩ h), fun hsum h =>
            hends _ (parseHeader_of_length ⟨hn10, hsync, hproto⟩ hsum h)⟩⟩⟩⟩⟩

section
variable {buf : List Byte}

/-- An accepted telegram passes the three stages (R204). -/
theorem decodeTelegram_of_accepted (h : Accepted buf) :
    decodeTelegram buf = .ok ((headerFields buf).toPacket
      (framesWritten buf (byteAt buf 8).toNat 0 [])) := by
  have hheader := parseHeader_of_passed h.start h.headerChecksum.symm h.length
  have hguard := integrityGuard_ok.2 h.highBits
  have hframes : decodeFrames buf (byteAt buf 8).toNat =
      .ok (framesWritten buf (byteAt buf 8).toNat 0 []) := by
    refine decodeFramesFrom_ok.2 ⟨fun k hk => ?_, rfl⟩
    rw [Nat.zero_add]
    exact (h.frameChecksums k hk).symm
  simp only [decodeTelegram, hheader, hguard]
  rw [show (headerFields buf).fc = byteAt buf 8 from rfl, hframes]

/-- A telegram that passes the three stages is accepted (R204). -/
theorem accepted_of_decodeTelegram {p : Packet} (h : decodeTelegram buf = .ok p) :
    Accepted buf := by
  obtain ⟨hd, pay, hheader, hguard, hframes, _⟩ := decodeTelegram_ok h
  obtain ⟨hlen, hsync, hproto, hsum, hlength, rfl⟩ := parseHeader_ok hheader
  obtain ⟨hmatches, _⟩ := decodeFramesFrom_ok.1 hframes
  refine ⟨⟨hlen, hsync, hproto⟩, hsum, hlength, integrityGuard_ok.1 hguard, fun i hi => ?_⟩
  have hframe := hmatches i hi
  rw [Nat.zero_add] at hframe
  exact hframe.symm

theorem decodeTelegram_error_of_not_accepted (h : ¬ Accepted buf) :
    ∃ e, decodeTelegram buf = .error e := by
  cases hdecode : decodeTelegram buf with
  | error e => exact ⟨e, rfl⟩
  | ok p => exact absurd (accepted_of_decodeTelegram hdecode) h

/-- Every error but `OffsetOutOfRange`, which only the field reads raise (R260). -/
def VBusError.ofDecode : VBusError → Prop
  | .offsetOutOfRange _ _ _ => False
  | _ => True

theorem parseHeader_error {e : VBusError} (h : parseHeader buf = .error e) : e.ofDecode := by
  unfold parseHeader at h
  repeat' split at h
  all_goals cases h
  all_goals trivial

/-- Only errors of the decode stages end a DECODE. -/
theorem decodeTelegram_error {e : VBusError} (h : decodeTelegram buf = .error e) : e.ofDecode := by
  unfold decodeTelegram at h
  split at h
  case h_1 hheader =>
    cases h
    exact parseHeader_error hheader
  case h_2 =>
    split at h
    case h_1 hguard =>
      cases h
      obtain ⟨_, _, _, _, _, _, rfl⟩ := guardFrom_error.1 hguard
      trivial
    case h_2 =>
      split at h
      case h_1 hframes =>
        cases h
        obtain ⟨_, _, _, _, rfl⟩ := decodeFramesFrom_error.1 hframes
        trivial
      case h_2 => cases h

theorem VBusError.ofDecode_ne {e : VBusError} (h : e.ofDecode) (offset size : Word) (n : Nat) :
    e ≠ .offsetOutOfRange offset size n := by
  rintro rfl
  exact h

/-- The decode stages raise the codes 0x1 to 0x7 (R260). -/
theorem VBusError.ofDecode_st {e : VBusError} (h : e.ofDecode) :
    ∃ c : BitVec 4, (Response.ofError e).st = some c ∧ 1 ≤ c.toNat ∧ c.toNat ≤ 7 := by
  cases e with
  | offsetOutOfRange => exact h.elim
  | _ => exact ⟨_, rfl, by decide, by decide⟩

theorem exec_decode_of_ok {s : State} {p : Packet} (hready : s.readyWith buf)
    (hp : decodeTelegram buf = .ok p) :
    exec .decode s =
      .next ((s.withPacket (some p)).respond (.ok (BitVec.ofNat 64 p.plen))) := by
  obtain ⟨hidle, hbuf⟩ := hready
  simp only [exec, execDecode, acceptCommand_idle hidle, hbuf, hp, returnOk]

end

/-- Settles O18: on an accepted telegram DECODE holds its packet, on any other it raises an error of
the decode stages. -/
theorem decodeSucceedsExactlyWhenAccepted : Obligations.DecodeSucceedsExactlyWhenAccepted := by
  unfold Obligations.DecodeSucceedsExactlyWhenAccepted
  intro s buf hready
  by_cases h : Accepted buf
  · refine ⟨_, exec_decode_of_ok hready (decodeTelegram_of_accepted h), rfl, ?_, ?_,
      fun hnot => absurd h hnot⟩
    · simp [h]
    · simp [h]
  · obtain ⟨e, he⟩ := decodeTelegram_error_of_not_accepted h
    obtain ⟨c, hc, hpos, hle⟩ := VBusError.ofDecode_st (decodeTelegram_error he)
    refine ⟨_, exec_decode_of_error hready he, rfl, ?_, ?_, fun _ => ⟨c, hc, hpos, hle⟩⟩
    · have hne : c ≠ 0x0#4 := by
        rintro rfl
        exact absurd hpos (by decide)
      simp [hc, hne, h]
    · simp [h]

/-- Settles O20: the error of the three stages is DECODE's answer. -/
theorem decodeFailureLeavesNoPacket : Obligations.DecodeFailureLeavesNoPacket := by
  unfold Obligations.DecodeFailureLeavesNoPacket
  intro s buf hready h
  obtain ⟨e, he⟩ := decodeTelegram_error_of_not_accepted h
  exact ⟨e, exec_decode_of_error hready he, he, VBusError.ofDecode_ne (decodeTelegram_error he)⟩

/-- Settles O25: DECODE keeps what it reads, and its answer replaces the whole of what it writes. -/
theorem decodeIsIdempotent : Obligations.DecodeIsIdempotent := by
  unfold Obligations.DecodeIsIdempotent
  intro s t h
  rcases execDecode_next h with ⟨hbusy, rfl⟩ |
    ⟨hidle, buf, hbuf, ⟨e, he, rfl⟩ | ⟨p, hp, rfl⟩⟩
  · exact exec_command_of_busy hbusy rfl
  · have hready : ((s.withPacket none).respond (.ofError e)).readyWith buf := ⟨hidle, hbuf⟩
    exact exec_decode_of_error hready he
  · have hready : ((s.withPacket (some p)).respond (.ok (BitVec.ofNat 64 p.plen))).readyWith buf :=
      ⟨hidle, hbuf⟩
    exact exec_decode_of_ok hready hp

end Sys2Proof.Machine
end

section
/-! PROOF. What a successful DECODE commits (30_encoding.md R70 to R74; 44_frame_decoder.md R202,
R203, R206): the payload of the written frames, byte by byte. -/

namespace Sys2Proof.Machine

theorem lane_blockAt (buf : List Byte) (off : Nat) {j : Nat} (hj : j < 4) :
    (Block.at buf off).lane j = byteAt buf (off + j) := by
  match j, hj with
  | 0, _ | 1, _ | 2, _ | 3, _ => rfl

theorem getElem?_block_toList (b : Block) {j : Nat} (hj : j < 4) :
    b.toList[j]? = some (b.lane j) := by
  match j, hj with
  | 0, _ | 1, _ | 2, _ | 3, _ => rfl

/-- Byte `a` of the payload is a byte of frame `a / 4`, as long as that frame is one of those
written; elsewhere the payload is what it was (R203). -/
theorem read_framesWritten (buf : List Byte) (n i : Nat) (p : Memory) (a : Nat) :
    Memory.read (framesWritten buf n i p) a =
      if 4 * i ≤ a ∧ a < 4 * (i + n) then some ((restoredFrame buf (a / 4)).lane (a % 4))
      else Memory.read p a := by
  induction n generalizing i p with
  | zero => rw [framesWritten, if_neg (by omega)]
  | succ n ih =>
    have hlength : (restoredFrame buf i).toList.length = 4 := rfl
    rw [framesWritten, ih, Memory.read_writeRange, payloadOffset, Config.frameData, hlength]
    by_cases hfirst : 4 * i ≤ a ∧ a < 4 * i + 4
    · have hframe : a / 4 = i := by omega
      have hbyte : a - 4 * i = a % 4 := by omega
      rw [if_neg (by omega), if_pos hfirst, if_pos (by omega), hframe, hbyte,
        getElem?_block_toList _ (by omega)]
    · by_cases hrest : 4 * (i + 1) ≤ a ∧ a < 4 * (i + 1 + n)
      · rw [if_pos hrest, if_pos (by omega)]
      · rw [if_neg hrest, if_neg hfirst, if_neg (by omega)]

/-- Settles O19: the header fields are those of the wire, and the payload is what
`read_framesWritten` says. -/
theorem decodeCommitsHeaderAndPayload : Obligations.DecodeCommitsHeaderAndPayload := by
  unfold Obligations.DecodeCommitsHeaderAndPayload
  intro s buf hready h
  have hdecode := decodeTelegram_of_accepted h
  refine ⟨_, exec_decode_of_ok hready hdecode, toNat_le16 _ _, toNat_le16 _ _, rfl, toNat_le16 _ _,
    rfl, rfl, fun i j hi hj => ?inside, fun a ha => ?above, (decodeTelegram_ok_legal hdecode).pay.1⟩
  case inside =>
    have hframe : (4 * i + j) / 4 = i := by omega
    have hbyte : (4 * i + j) % 4 = j := by omega
    rw [Header.toPacket, read_framesWritten, if_pos (by omega), hframe, hbyte, restoredFrame,
      lane_septetRestore _ _ hj, lane_blockAt _ _ hj]
    rfl
  case above => rw [Header.toPacket, read_framesWritten, if_neg (by omega), Memory.read_nil]

end Sys2Proof.Machine
end

section
/-! PROOF. A telegram with one byte replaced (44_frame_decoder.md R208): what its bytes and
checksums are, and which stage finds the change. -/

namespace Sys2Proof.Machine

theorem byteAt_set_same {v : List Byte} {j : Nat} (hj : j < v.length) (x : Byte) :
    byteAt (v.set j x) j = x := by
  rw [byteAt_eq_getElem (by rwa [List.length_set]), List.getElem_set_self]

theorem byteAt_set_other (v : List Byte) {j k : Nat} (h : k ≠ j) (x : Byte) :
    byteAt (v.set j x) k = byteAt v k := by
  rw [byteAt, byteAt, List.getD_eq_getElem?_getD, List.getD_eq_getElem?_getD,
    List.getElem?_set_ne h.symm]

theorem slice_set_of_outside (v : List Byte) {j off n : Nat} (h : j < off ∨ off + n ≤ j)
    (x : Byte) : slice (v.set j x) off n = slice v off n := by
  rw [slice, slice]
  rcases h with h | h
  · rw [List.drop_set_of_lt h]
  · rw [List.drop_set, if_neg (by omega), List.take_set_of_le (by omega)]

/-- A replaced byte inside a slice, with what stands before and after it. -/
theorem slice_set_of_inside {v : List Byte} {j off n : Nat} (hj : j < v.length) (hlo : off ≤ j)
    (hhi : j < off + n) (x : Byte) :
    slice (v.set j x) off n =
      (v.take j).drop off ++ x :: (v.drop (j + 1)).take (off + n - j - 1) := by
  have hlength : (v.take j).length = j := List.length_take_of_le (Nat.le_of_lt hj)
  have hcount : n - (j - off) = (off + n - j - 1) + 1 := by omega
  rw [slice, List.set_eq_take_append_cons_drop, if_pos hj,
    List.drop_append_of_le_length (by omega), List.take_append, List.length_drop, hlength,
    List.take_of_length_le (by rw [List.length_drop]; omega), hcount, List.take_succ_cons]

theorem checksum7_set_of_outside (v : List Byte) {j off n : Nat} (h : j < off ∨ off + n ≤ j)
    (x : Byte) : checksum7 (v.set j x) off n = checksum7 v off n := by
  rw [checksum7, checksum7, slice_set_of_outside v h]

/-- A replaced byte keeps a checksum over it exactly when it keeps its low seven bits (R103). -/
theorem checksum7_set_eq_iff {v : List Byte} {j off n : Nat} (hj : j < v.length) (hlo : off ≤ j)
    (hhi : j < off + n) (x : Byte) :
    checksum7 (v.set j x) off n = checksum7 v off n ↔ x &&& 0x7F#8 = byteAt v j &&& 0x7F#8 := by
  have hself : v.set j (byteAt v j) = v := by
    rw [byteAt_eq_getElem hj, List.set_getElem_self]
  have hv : slice v off n =
      (v.take j).drop off ++ byteAt v j :: (v.drop (j + 1)).take (off + n - j - 1) := by
    rw [← slice_set_of_inside hj hlo hhi, hself]
  rw [checksum7, checksum7, slice_set_of_inside hj hlo hhi, hv]
  exact checksumOf_replace_iff _ _ _ _

/-- Two values below 0x80 with the same low seven bits are the same. -/
theorem eq_of_sameLowBits {x y : Byte} (hx : x.toNat ≤ 0x7F) (hy : y.toNat ≤ 0x7F)
    (h : x &&& 0x7F#8 = y &&& 0x7F#8) : x = y := by
  have hmod := and_0x7F_eq_iff.1 h
  apply BitVec.eq_of_toNat_eq
  omega

section
variable {v : List Byte} {j : Nat} {x : Byte}

/-- A byte other than the first, the header's protocol byte aside, leaves the header's start alone.
-/
theorem headerStarts_set (hv : Accepted v) (h0 : j ≠ 0) (h5 : j ≠ 5) :
    HeaderStarts (v.set j x) := by
  obtain ⟨hlen, hsync, hproto⟩ := hv.start
  refine ⟨by rwa [List.length_set], ?_, ?_⟩
  · rw [byteAt_set_other v h0.symm, hsync]
  · rw [byteAt_set_other v h5.symm, hproto]

theorem decodeTelegram_set_sync (hv : Accepted v) (hx : byteAt v 0 ≠ x) :
    decodeTelegram (v.set 0 x) = .error .syncByteMismatch := by
  obtain ⟨hlen, hsync, _⟩ := hv.start
  refine decodeTelegram_of_header_error (parseHeader_of_bad_sync (.inr ?_))
  rw [byteAt_set_same (by omega)]
  exact fun h => hx (hsync.trans h.symm)

theorem decodeTelegram_set_protocol (hv : Accepted v) (hx : byteAt v 5 ≠ x) :
    decodeTelegram (v.set 5 x) = .error (.unsupportedProtocol x) := by
  obtain ⟨hlen, hsync, hproto⟩ := hv.start
  have hbyte : byteAt (v.set 5 x) 5 = x := byteAt_set_same (by omega) x
  have herror : parseHeader (v.set 5 x) = .error (.unsupportedProtocol (byteAt (v.set 5 x) 5)) := by
    refine parseHeader_of_protocol (by rw [List.length_set]; omega) ?_ ?_
    · rw [byteAt_set_other v (by decide), hsync]
    · rw [hbyte]
      exact fun h => hx (hproto.trans h.symm)
  rw [hbyte] at herror
  exact decodeTelegram_of_header_error herror

/-- A change the header checksum sees (R126). -/
theorem decodeTelegram_set_headerSum (hv : Accepted v) (h5 : j ≠ 5)
    (hrange : 1 ≤ j ∧ j ≤ 8) (hlow : ¬ x &&& 0x7F#8 = byteAt v j &&& 0x7F#8) :
    decodeTelegram (v.set j x) =
      .error (.headerChecksumMismatch (checksum7 (v.set j x) 1 8) (byteAt v 9)) := by
  have hlen := hv.start.1
  have hbyte : byteAt (v.set j x) 9 = byteAt v 9 := byteAt_set_other v (by omega) x
  have herror := parseHeader_of_checksum (headerStarts_set (x := x) hv (by omega) h5) (by
    rw [hbyte, hv.headerChecksum]
    exact mt (checksum7_set_eq_iff (by omega) (by omega) (by omega) x).1 hlow)
  rw [hbyte] at herror
  exact decodeTelegram_of_header_error herror

theorem decodeTelegram_set_hchk (hv : Accepted v) (hx : byteAt v 9 ≠ x) :
    decodeTelegram (v.set 9 x) = .error (.headerChecksumMismatch (byteAt v 9).toNat x) := by
  have hlen := hv.start.1
  have hbyte : byteAt (v.set 9 x) 9 = x := byteAt_set_same (by omega) x
  have hsum : checksum7 (v.set 9 x) 1 8 = (byteAt v 9).toNat := by
    rw [checksum7_set_of_outside v (.inr (by decide)), hv.headerChecksum]
  have herror := parseHeader_of_checksum (headerStarts_set (j := 9) hv (by decide) (by decide)) (by
    rw [hbyte, hsum]
    exact fun h => hx (BitVec.eq_of_toNat_eq h))
  rw [hbyte, hsum] at herror
  exact decodeTelegram_of_header_error herror

/-- The header checksum does not see a change of bit 7, nor a change past the header. -/
theorem headerSum_set (hv : Accepted v) (hj : j < v.length) (hpos : 1 ≤ j) (h9 : j ≠ 9)
    (hlow : j ≤ 8 → x &&& 0x7F#8 = byteAt v j &&& 0x7F#8) :
    checksum7 (v.set j x) 1 8 = (byteAt (v.set j x) 9).toNat := by
  rw [byteAt_set_other v h9.symm, hv.headerChecksum]
  rcases Nat.lt_or_ge 8 j with h | h
  · exact checksum7_set_of_outside v (.inr (by omega)) x
  · exact (checksum7_set_eq_iff hj hpos (by omega) x).2 (hlow h)

theorem decodeTelegram_set_fcnt (hv : Accepted v) (hx : byteAt v 8 ≠ x)
    (hlow : x &&& 0x7F#8 = byteAt v 8 &&& 0x7F#8) :
    decodeTelegram (v.set 8 x) = .error (.lengthMismatch (10 + 6 * x.toNat) v.length) := by
  have hlen := hv.start.1
  have hlength := hv.length
  have hbyte : byteAt (v.set 8 x) 8 = x := byteAt_set_same (by omega) x
  have hne : (byteAt v 8).toNat ≠ x.toNat := fun h => hx (BitVec.eq_of_toNat_eq h)
  have herror := parseHeader_of_length (headerStarts_set (x := x) hv (by decide) (by decide))
    (headerSum_set hv (by omega) (by decide) (by decide) fun _ => hlow) (by
      rw [hbyte, List.length_set]
      omega)
  rw [hbyte, List.length_set] at herror
  exact decodeTelegram_of_header_error herror

/-- A change that the header does not see: outside the bytes it looks at one by one, and of bit 7
alone where its checksum covers it. -/
structure HeaderOverlooks (v : List Byte) (j : Nat) (x : Byte) : Prop where
  /-- inside the telegram -/
  lt : j < v.length
  /-- not the sync byte -/
  sync : j ≠ 0
  /-- not the protocol -/
  proto : j ≠ 5
  /-- not the frame count -/
  fcnt : j ≠ 8
  /-- not the header checksum -/
  hchk : j ≠ 9
  /-- not seen by the header checksum -/
  low : j ≤ 8 → x &&& 0x7F#8 = byteAt v j &&& 0x7F#8

theorem HeaderOverlooks.parseHeader_ok (h : HeaderOverlooks v j x) (hv : Accepted v) :
    parseHeader (v.set j x) = .ok (headerFields (v.set j x)) := by
  refine parseHeader_of_passed (headerStarts_set hv h.sync h.proto)
    (headerSum_set hv h.lt (Nat.one_le_iff_ne_zero.2 h.sync) h.hchk h.low) ?_
  rw [byteAt_set_other v h.fcnt.symm, List.length_set, hv.length]

/-- The guard finds bit 7 of the replaced byte, since every other byte is clear (R150). -/
theorem HeaderOverlooks.decodeTelegram_of_high (h : HeaderOverlooks v j x) (hv : Accepted v)
    (hhigh : 0x80 ≤ x.toNat) :
    decodeTelegram (v.set j x) = .error (.highBitSetError j x) := by
  have hpos := Nat.one_le_iff_ne_zero.2 h.sync
  have hbyte : byteAt (v.set j x) j = x := byteAt_set_same h.lt x
  have hguard := integrityGuard_eq_error_of_lowest (buf := v.set j x) hpos
    (by rw [List.length_set]; exact h.lt) (by rwa [hbyte]) (fun k hk hkj => by
      rw [byteAt_set_other v (Nat.ne_of_lt hkj)]
      exact hv.highBits k hk (Nat.lt_trans hkj h.lt))
  rw [hbyte] at hguard
  exact decodeTelegram_of_guard_error (h.parseHeader_ok hv) hguard

/-- A replaced byte with bit 7 clear passes the guard. -/
theorem integrityGuard_set_of_low (hv : Accepted v) (hj : j < v.length) (hlow : x.toNat ≤ 0x7F) :
    integrityGuard (v.set j x) = .ok () := by
  refine integrityGuard_ok.2 fun k hk hklen => ?_
  rw [List.length_set] at hklen
  by_cases hkj : k = j
  · rw [hkj, byteAt_set_same hj]
    exact hlow
  · rw [byteAt_set_other v hkj]
    exact hv.highBits k hk hklen

/-- A replaced byte leaves the checksum of every earlier frame alone (R192). -/
theorem frameMatches_set_of_earlier (hv : Accepted v) {k : Nat} (hk : k < (byteAt v 8).toNat)
    (hj : 10 + 6 * k + 6 ≤ j) : frameMatches (v.set j x) k := by
  have hsum := hv.frameChecksums k hk
  rw [frameMatches, frameOffset, Config.hdrLen, Config.frameLen,
    checksum7_set_of_outside v (.inr (by omega)), byteAt_set_other v (by omega), hsum]

/-- The frame decoder finds a change below bit 7 in the frame it was made in: every earlier frame
matches, and this one does not (R192, R193). -/
theorem decodeTelegram_set_frame (hv : Accepted v) (hj : j < v.length) (hlow : x.toNat ≤ 0x7F)
    {i : Nat} (hi : 10 + 6 * i ≤ j) (hi' : j < 10 + 6 * i + 6)
    (hfails : ¬ frameMatches (v.set j x) i) :
    decodeTelegram (v.set j x) =
      .error (.frameChecksumMismatch i (checksum7 (v.set j x) (10 + 6 * i) 5)
        (byteAt (v.set j x) (10 + 6 * i + 5))) := by
  have hlength := hv.length
  have hoverlooks : HeaderOverlooks v j x :=
    ⟨hj, by omega, by omega, by omega, by omega, fun h => by omega⟩
  refine decodeTelegram_of_frames_error (hoverlooks.parseHeader_ok hv)
    (integrityGuard_set_of_low hv hj hlow) ?_
  rw [show (headerFields (v.set j x)).fc = byteAt v 8 from byteAt_set_other v (by omega) x]
  exact decodeFrames_eq_error_of_first (by omega) hfails fun k hk =>
    frameMatches_set_of_earlier hv (by omega) (by omega)

/-- A changed data or septet byte of frame `i`. -/
theorem decodeTelegram_set_frame_data (hv : Accepted v) (hj : j < v.length)
    (hx : byteAt v j ≠ x) (hlow : x.toNat ≤ 0x7F) {i : Nat} (hi : 10 + 6 * i ≤ j)
    (hi' : j < 10 + 6 * i + 5) :
    decodeTelegram (v.set j x) =
      .error (.frameChecksumMismatch i (checksum7 (v.set j x) (10 + 6 * i) 5)
        (byteAt v (10 + 6 * i + 5))) := by
  have hlength := hv.length
  have hsum := hv.frameChecksums i (by omega)
  have hbyte : byteAt (v.set j x) (10 + 6 * i + 5) = byteAt v (10 + 6 * i + 5) :=
    byteAt_set_other v (by omega) x
  have hfails : ¬ frameMatches (v.set j x) i := by
    rw [frameMatches, frameOffset, Config.hdrLen, Config.frameLen, hbyte, hsum,
      checksum7_set_eq_iff hj hi hi']
    exact fun h => hx (eq_of_sameLowBits hlow (hv.highBits j (by omega) hj) h).symm
  rw [decodeTelegram_set_frame hv hj hlow hi (by omega) hfails, hbyte]

/-- A changed checksum byte of frame `i`. -/
theorem decodeTelegram_set_frame_checksum (hv : Accepted v) (hj : j < v.length)
    (hx : byteAt v j ≠ x) (hlow : x.toNat ≤ 0x7F) {i : Nat} (hi : j = 10 + 6 * i + 5) :
    decodeTelegram (v.set j x) = .error (.frameChecksumMismatch i (byteAt v j).toNat x) := by
  have hlength := hv.length
  have hsum : checksum7 (v.set j x) (10 + 6 * i) 5 = (byteAt v j).toNat := by
    rw [checksum7_set_of_outside v (.inr (by omega)), hi, hv.frameChecksums i (by omega)]
  have hbyte : byteAt (v.set j x) (10 + 6 * i + 5) = x := by
    rw [← hi, byteAt_set_same hj]
  have hfails : ¬ frameMatches (v.set j x) i := by
    rw [frameMatches, frameOffset, Config.hdrLen, Config.frameLen, hbyte, hsum]
    exact fun h => hx (BitVec.eq_of_toNat_eq h)
  rw [decodeTelegram_set_frame hv hj hlow (by omega) (by omega) hfails, hbyte, hsum]

/-- A change of bit 7 alone sets it, the byte it changes having it clear. -/
theorem high_of_sameLowBits (hv : Accepted v) (hj : j < v.length) (hpos : 1 ≤ j)
    (hx : byteAt v j ≠ x) (hlow : x &&& 0x7F#8 = byteAt v j &&& 0x7F#8) : 0x80 ≤ x.toNat := by
  by_contra h
  exact hx (eq_of_sameLowBits (by omega) (hv.highBits j hpos hj) hlow).symm

end

/-- Settles O24: each clause is the stage that finds the change, whose error is DECODE's. -/
theorem singleByteCorruptionOutcome : Obligations.SingleByteCorruptionOutcome := by
  unfold Obligations.SingleByteCorruptionOutcome
  intro s v j x hv hj hx hready raises sameLowBits newHeaderSum
  have hraises : ∀ e, decodeTelegram (v.set j x) = .error e → raises e := fun e =>
    exec_decode_of_error hready
  refine ⟨?sync, fun hmem hlow => hraises _ ?headerSum, fun hmem hlow => hraises _ ?headerHigh,
    ?protocol, ?fcnt, ?hchk, fun i k hoffset hk => ⟨fun hhigh => hraises _ ?frameHigh,
      fun hlow hk5 => hraises _ ?frameData, fun hlow hk5 => hraises _ ?frameChecksum⟩⟩
  case sync =>
    rintro rfl
    exact hraises _ (decodeTelegram_set_sync hv hx)
  case headerSum =>
    simp only [List.mem_cons, List.not_mem_nil, or_false] at hmem
    exact decodeTelegram_set_headerSum hv (by omega) (by omega) hlow
  case headerHigh =>
    simp only [List.mem_cons, List.not_mem_nil, or_false] at hmem
    have hoverlooks : HeaderOverlooks v j x :=
      ⟨hj, by omega, by omega, by omega, by omega, fun _ => hlow⟩
    exact hoverlooks.decodeTelegram_of_high hv (high_of_sameLowBits hv hj (by omega) hx hlow)
  case protocol =>
    rintro rfl
    exact hraises _ (decodeTelegram_set_protocol hv hx)
  case fcnt =>
    rintro rfl hlow
    exact hraises _ (decodeTelegram_set_fcnt hv hx hlow)
  case hchk =>
    rintro rfl
    exact hraises _ (decodeTelegram_set_hchk hv hx)
  case frameHigh =>
    have hoverlooks : HeaderOverlooks v j x :=
      ⟨hj, by omega, by omega, by omega, by omega, fun h => by omega⟩
    exact hoverlooks.decodeTelegram_of_high hv hhigh
  case frameData => exact decodeTelegram_set_frame_data hv hj hx hlow (by omega) (by omega)
  case frameChecksum =>
    exact decodeTelegram_set_frame_checksum hv hj hx hlow (by omega)

end Sys2Proof.Machine
end

section
/-! PROOF. The rounding of an exact quotient of units (00_scope.md R14; 93_implementation_defined.md
G1, G6). The magnitude just below the quotient and the one just above it are found first; the answer
is the nearer of the two, and every other magnitude is farther. -/

namespace Sys2Proof.Machine

/-- A significand `q` and an exponent `e` added up as `roundUnits` adds them, the carry of `q =
2^53` into the exponent included. -/
theorem unitsOfMagnitude_scaled {e q : Nat} (hq : q ≤ 2 ^ 53) (h : e = 0 ∨ 2 ^ 52 ≤ q) :
    unitsOfMagnitude (e * 2 ^ 52 + q) = q * 2 ^ e := by
  unfold unitsOfMagnitude
  by_cases hsub : e * 2 ^ 52 + q < 2 ^ 52
  · obtain rfl : e = 0 := by omega
    rw [if_pos hsub, Nat.pow_zero]
    omega
  · rw [if_neg hsub]
    rcases Nat.lt_or_ge q (2 ^ 53) with hlt | hge
    · have hmod : 2 ^ 52 + (e * 2 ^ 52 + q) % 2 ^ 52 = q := by omega
      have hdiv : (e * 2 ^ 52 + q) / 2 ^ 52 - 1 = e := by omega
      rw [hmod, hdiv]
    · have hmod : (e * 2 ^ 52 + q) % 2 ^ 52 = 0 := by omega
      have hdiv : (e * 2 ^ 52 + q) / 2 ^ 52 - 1 = e + 1 := by omega
      obtain rfl : q = 2 ^ 53 := Nat.le_antisymm hq hge
      rw [hmod, hdiv, Nat.pow_succ]
      omega

/-- `m` is the magnitude just below `num / den` units, or there. -/
structure FloorMagnitude (num den m : Nat) : Prop where
  /-- not above the quotient -/
  le : den * unitsOfMagnitude m ≤ num
  /-- the next one is -/
  lt : num < den * unitsOfMagnitude (m + 1)

/-- The quotient is past the middle of the two magnitudes around it, or there with the lower one
odd. -/
def RoundsUp (num den m : Nat) : Prop :=
  den * (unitsOfMagnitude m + unitsOfMagnitude (m + 1)) < 2 * num ∨
    (2 * num = den * (unitsOfMagnitude m + unitsOfMagnitude (m + 1)) ∧ m % 2 = 1)

/-- The exponent `roundUnits` takes leaves a significand of at most 53 bits, and of 53 bits where it
is not the least. -/
theorem significand_bounds (num den : Nat) :
    let e := Nat.log2 (num / den) - 52
    num / (den * 2 ^ e) < 2 ^ 53 ∧ (e = 0 ∨ 2 ^ 52 ≤ num / (den * 2 ^ e)) := by
  intro e
  rw [← Nat.div_div_eq_div_mul]
  have hupper : num / den < 2 ^ (Nat.log2 (num / den) + 1) := Nat.lt_log2_self
  constructor
  · refine Nat.div_lt_of_lt_mul (Nat.lt_of_lt_of_le hupper ?_)
    rw [← Nat.pow_add]
    exact Nat.pow_le_pow_right (by decide) (by omega)
  · rcases Nat.eq_zero_or_pos e with he | he
    · exact .inl he
    · have hne : num / den ≠ 0 := by
        intro hzero
        have : e = 0 := by simp [e, hzero]
        omega
      refine .inr ((Nat.le_div_iff_mul_le (Nat.two_pow_pos e)).2 ?_)
      rw [← Nat.pow_add]
      exact Nat.le_trans (Nat.pow_le_pow_right (by decide) (by omega)) (Nat.log2_self_le hne)

/-- What `roundUnits` answers, in terms of the magnitudes around the quotient. -/
theorem roundUnits_eq (num : Nat) {den : Nat} (hden : 0 < den) :
    ∃ m, FloorMagnitude num den m ∧
      ((RoundsUp num den m ∧ roundUnits num den = min (m + 1) infMagnitude) ∨
        (¬ RoundsUp num den m ∧ roundUnits num den = min m infMagnitude)) := by
  obtain ⟨hq, he⟩ := significand_bounds num den
  have hround : roundUnits num den =
      let e := Nat.log2 (num / den) - 52
      let d := den * 2 ^ e
      min (e * 2 ^ 52 + if d < 2 * (num % d) ∨ (2 * (num % d) = d ∧ num / d % 2 = 1)
        then num / d + 1 else num / d) infMagnitude := rfl
  generalize Nat.log2 (num / den) - 52 = e at hq he hround
  have hd : 0 < den * 2 ^ e := Nat.mul_pos hden (Nat.two_pow_pos e)
  have hnum : den * 2 ^ e * (num / (den * 2 ^ e)) + num % (den * 2 ^ e) = num := Nat.div_add_mod _ _
  have hr : num % (den * 2 ^ e) < den * 2 ^ e := Nat.mod_lt _ hd
  simp only at hround
  generalize hdef : den * 2 ^ e = d at *
  generalize num / d = q at *
  generalize num % d = r at *
  have hlower : den * unitsOfMagnitude (e * 2 ^ 52 + q) = d * q := by
    rw [unitsOfMagnitude_scaled (Nat.le_of_lt hq) he, ← hdef, Nat.mul_comm q, Nat.mul_assoc]
  have hupper : den * unitsOfMagnitude (e * 2 ^ 52 + q + 1) = d * q + d := by
    rw [Nat.add_assoc, unitsOfMagnitude_scaled hq (he.imp_right Nat.le_succ_of_le), ← hdef,
      Nat.mul_comm (q + 1), ← Nat.mul_assoc, Nat.mul_succ]
  have hup : RoundsUp num den (e * 2 ^ 52 + q) ↔ d < 2 * r ∨ (2 * r = d ∧ q % 2 = 1) := by
    rw [RoundsUp, Nat.mul_add, hlower, hupper]
    omega
  refine ⟨e * 2 ^ 52 + q, ⟨by omega, by omega⟩, ?_⟩
  by_cases h : RoundsUp num den (e * 2 ^ 52 + q)
  · exact .inl ⟨h, by rw [hround, if_pos (hup.1 h), Nat.add_assoc]⟩
  · exact .inr ⟨h, by rw [hround, if_neg (mt hup.2 h)]⟩

/-- A larger magnitude is a larger multiple of the denominator. -/
theorem mul_units_lt {den m n : Nat} (hden : 0 < den) (h : m < n) :
    den * unitsOfMagnitude m < den * unitsOfMagnitude n :=
  Nat.mul_lt_mul_of_pos_left (unitsOfMagnitude_strictMono h) hden

theorem mul_units_le {m n : Nat} (den : Nat) (h : m ≤ n) :
    den * unitsOfMagnitude m ≤ den * unitsOfMagnitude n :=
  Nat.mul_le_mul_left den (unitsOfMagnitude_strictMono.monotone h)

/-- How far a magnitude is from the quotient, times the denominator. -/
def distance (num den m : Nat) : Nat := ((num : Int) - den * unitsOfMagnitude m).natAbs

theorem distance_eq (num den m : Nat) :
    distance num den m = ((num : Int) - (den * unitsOfMagnitude m : Nat)).natAbs := by
  rw [distance, Nat.cast_mul]

/-- Below the quotient the nearest magnitude is the one just below it. -/
theorem FloorMagnitude.distance_of_lt {num den m n : Nat} (h : FloorMagnitude num den m)
    (hden : 0 < den) (hn : n < m) : distance num den m < distance num den n := by
  have hle := h.le
  have hlt := mul_units_lt hden hn
  rw [distance_eq, distance_eq]
  omega

/-- Above it the nearest is the one just above it. -/
theorem FloorMagnitude.distance_of_gt {num den m n : Nat} (h : FloorMagnitude num den m)
    (hden : 0 < den) (hn : m + 1 < n) : distance num den (m + 1) < distance num den n := by
  have hlt := h.lt
  have hgt := mul_units_lt hden hn
  rw [distance_eq, distance_eq]
  omega

/-- Of the two, the upper one is the nearer, or as near with an even magnitude, where the quotient
rounds up. -/
theorem FloorMagnitude.distance_up {num den m : Nat} (h : FloorMagnitude num den m)
    (hup : RoundsUp num den m) :
    distance num den (m + 1) ≤ distance num den m ∧
      (distance num den (m + 1) = distance num den m → (m + 1) % 2 = 0) := by
  have hle := h.le
  have hlt := h.lt
  rw [RoundsUp, Nat.mul_add] at hup
  rw [distance_eq, distance_eq]
  omega

/-- The lower one is, where it does not. -/
theorem FloorMagnitude.distance_down {num den m : Nat} (h : FloorMagnitude num den m)
    (hdown : ¬ RoundsUp num den m) :
    distance num den m ≤ distance num den (m + 1) ∧
      (distance num den m = distance num den (m + 1) → m % 2 = 0) := by
  have hle := h.le
  have hlt := h.lt
  rw [RoundsUp, Nat.mul_add] at hdown
  rw [distance_eq, distance_eq]
  omega

theorem FloorMagnitude.nearest_up {num den m : Nat} (h : FloorMagnitude num den m)
    (hden : 0 < den) (hup : RoundsUp num den m) {n : Nat} (hn : n ≠ m + 1) :
    distance num den (m + 1) ≤ distance num den n ∧
      (distance num den (m + 1) = distance num den n → (m + 1) % 2 = 0) := by
  have htie := h.distance_up hup
  rcases Nat.lt_or_gt_of_ne hn with hlt | hgt
  · rcases Nat.lt_or_eq_of_le (Nat.le_of_lt_succ hlt) with hlt | rfl
    · have hfar := h.distance_of_lt hden hlt
      omega
    · exact htie
  · have hfar := h.distance_of_gt hden hgt
    omega

theorem FloorMagnitude.nearest_down {num den m : Nat} (h : FloorMagnitude num den m)
    (hden : 0 < den) (hdown : ¬ RoundsUp num den m) {n : Nat} (hn : n ≠ m) :
    distance num den m ≤ distance num den n ∧
      (distance num den m = distance num den n → m % 2 = 0) := by
  have htie := h.distance_down hdown
  rcases Nat.lt_or_gt_of_ne hn with hlt | hgt
  · have hfar := h.distance_of_lt hden hlt
    omega
  · rcases Nat.lt_or_eq_of_le (Nat.succ_le_of_lt hgt) with hlt | rfl
    · have hfar := h.distance_of_gt hden hlt
      omega
    · exact htie

/-- The bound of R14's overflow is half way from the largest finite value to infinity's magnitude.
-/
theorem units_overflow :
    unitsOfMagnitude (infMagnitude - 1) + unitsOfMagnitude infMagnitude =
      2 * ((2 ^ 54 - 1) * 2 ^ 2044) := by
  decide +kernel

/-- A magnitude at infinity's or above is reached from the overflow bound on. -/
theorem FloorMagnitude.overflow_iff {num den m : Nat} (h : FloorMagnitude num den m)
    (hden : 0 < den) :
    (infMagnitude ≤ m ∨ (infMagnitude = m + 1 ∧ RoundsUp num den m)) ↔
      den * ((2 ^ 54 - 1) * 2 ^ 2044) ≤ num := by
  have hbound : den * unitsOfMagnitude (infMagnitude - 1) + den * unitsOfMagnitude infMagnitude =
      2 * (den * ((2 ^ 54 - 1) * 2 ^ 2044)) := by
    rw [← Nat.mul_add, Nat.mul_left_comm, ← units_overflow]
  have hinf := mul_units_lt (n := infMagnitude) hden (Nat.sub_one_lt (by decide))
  have hle := h.le
  have hlt := h.lt
  generalize den * ((2 ^ 54 - 1) * 2 ^ 2044) = bound at *
  rcases Nat.lt_trichotomy (m + 1) infMagnitude with hm | hm | hm
  · have hbelow := mul_units_le den (Nat.le_sub_one_of_lt hm)
    omega
  · obtain rfl : m = infMagnitude - 1 := by omega
    have hodd : (infMagnitude - 1) % 2 = 1 := by decide
    rw [RoundsUp, Nat.mul_add, hm]
    omega
  · have habove := mul_units_le den (Nat.le_of_lt_succ hm)
    omega

theorem roundUnits_nearestEven (num : Nat) {den : Nat} (hden : 0 < den) :
    NearestEven num den (roundUnits num den) := by
  obtain ⟨m, hm, ⟨hup, hround⟩ | ⟨hdown, hround⟩⟩ := roundUnits_eq num hden
  · refine ⟨roundUnits_le num den, ?_, fun hfinite n _ hn => ?_⟩
    · rw [← hm.overflow_iff hden, hround]
      simp only [hup, and_true]
      omega
    · have hanswer : roundUnits num den = m + 1 := by omega
      rw [hanswer] at hn ⊢
      exact hm.nearest_up hden hup hn
  · refine ⟨roundUnits_le num den, ?_, fun hfinite n _ hn => ?_⟩
    · rw [← hm.overflow_iff hden, hround]
      simp only [hdown, and_false, or_false]
      omega
    · have hanswer : roundUnits num den = m := by omega
      rw [hanswer] at hn ⊢
      exact hm.nearest_down hden hdown hn

/-- Settles O36: `roundUnits_nearestEven`. -/
theorem roundingIsToNearestEven : Obligations.RoundingIsToNearestEven := by
  unfold Obligations.RoundingIsToNearestEven
  exact fun num _ hden => roundUnits_nearestEven num hden

end Sys2Proof.Machine
end

section
/-! PROOF. Exact quotients (00_scope.md R14): where a magnitude is the quotient, it is the answer;
so integers up to 2^53 convert exactly. -/

namespace Sys2Proof.Machine

/-- The magnitude below a quotient is the quotient's own where there is one. -/
theorem FloorMagnitude.eq_of_exact {den m n : Nat}
    (h : FloorMagnitude (den * unitsOfMagnitude n) den m) (hden : 0 < den) : m = n := by
  have hle := h.le
  have hlt := h.lt
  rcases Nat.lt_trichotomy m n with hmn | rfl | hmn
  · exact absurd (mul_units_le den (show m + 1 ≤ n from hmn)) (by omega)
  · rfl
  · exact absurd (mul_units_lt hden hmn) (by omega)

theorem roundUnits_exact {den n : Nat} (hden : 0 < den) (hn : n ≤ infMagnitude) :
    roundUnits (den * unitsOfMagnitude n) den = n := by
  obtain ⟨m, hm, ⟨hup, hround⟩ | ⟨_, hround⟩⟩ := roundUnits_eq (den * unitsOfMagnitude n) hden
  · obtain rfl := hm.eq_of_exact hden
    have hlt := hm.lt
    rw [RoundsUp, Nat.mul_add] at hup
    omega
  · obtain rfl := hm.eq_of_exact hden
    rw [hround, Nat.min_eq_left hn]

/-- Every integer of at most 53 bits, times a power of two, is the value of a magnitude. -/
theorem exists_unitsOfMagnitude_eq (e : Nat) {n : Nat} (hn : n ≤ 2 ^ 53) :
    ∃ m, m ≤ e * 2 ^ 52 + 2 ^ 53 ∧ unitsOfMagnitude m = n * 2 ^ e := by
  induction e generalizing n with
  | zero => exact ⟨0 * 2 ^ 52 + n, by omega, unitsOfMagnitude_scaled hn (.inl rfl)⟩
  | succ e ih =>
    rcases Nat.lt_or_ge n (2 ^ 52) with hlt | hge
    · obtain ⟨m, hm, hunits⟩ := ih (n := 2 * n) (by omega)
      have hstep : e * 2 ^ 52 + 2 ^ 53 ≤ (e + 1) * 2 ^ 52 + 2 ^ 53 := by omega
      refine ⟨m, Nat.le_trans hm hstep, ?_⟩
      rw [hunits, Nat.pow_succ', ← Nat.mul_assoc, Nat.mul_comm n 2]
    · exact ⟨(e + 1) * 2 ^ 52 + n, by omega, unitsOfMagnitude_scaled hn (.inr hge)⟩

/-- A pattern packed from a magnitude up to infinity's has that sign and magnitude. -/
theorem pack64_of_le (neg : Bool) {m : Nat} (h : m ≤ infMagnitude) :
    HasSignMagnitude (pack64 neg m) neg m :=
  pack64_hasSignMagnitude neg (Nat.lt_of_le_of_lt h infMagnitude_lt)

theorem pack64_roundUnits (neg : Bool) (num den : Nat) :
    HasSignMagnitude (pack64 neg (roundUnits num den)) neg (roundUnits num den) :=
  pack64_of_le neg (roundUnits_le num den)

/-- Settles O35: an integer of 53 bits is the value of a finite magnitude, which `fl` finds. -/
theorem smallIntegersConvertExactly : Obligations.SmallIntegersConvertExactly := by
  unfold Obligations.SmallIntegersConvertExactly
  intro z hz
  obtain ⟨m, hm, hunits⟩ := exists_unitsOfMagnitude_eq 1074 hz
  have hfinite : m < infMagnitude := Nat.lt_of_le_of_lt hm (by decide)
  have hround : roundUnits (z.natAbs * unitsPerOne) 1 = m := by
    have hexact := roundUnits_exact Nat.one_pos (Nat.le_of_lt hfinite)
    rwa [hunits, Nat.one_mul] at hexact
  rw [floatOfInt, hround, ofBits_of_lt (pack64_of_le _ (Nat.le_of_lt hfinite)) hfinite, hunits,
    unitsPerOne]

end Sys2Proof.Machine
end

section
/-! PROOF. The operations fl, /f and *f on finite values (00_scope.md R14; 45_field_extractor.md
R228, R229): each is one rounding of the exact result; and with infinities and zeros R232's signed
zeros and infinities. -/

namespace Sys2Proof.Machine

theorem isRounded_pack64 (neg : Bool) (num : Nat) {den : Nat} (hden : 0 < den) :
    IsRounded (pack64 neg (roundUnits num den)) neg num den :=
  ⟨roundUnits num den, pack64_roundUnits neg num den, roundUnits_nearestEven num hden⟩

theorem div64_of_finite {x y : DWord} {nx ny : Bool} {ux uy : Nat}
    (hx : Binary64.ofBits x = .finite nx ux) (hy : Binary64.ofBits y = .finite ny uy)
    (hne : uy ≠ 0) : div64 x y = pack64 (nx ^^ ny) (roundUnits (ux * unitsPerOne) uy) := by
  simp only [div64, hx, hy, if_neg hne]

theorem mul64_of_finite {x y : DWord} {nx ny : Bool} {ux uy : Nat}
    (hx : Binary64.ofBits x = .finite nx ux) (hy : Binary64.ofBits y = .finite ny uy) :
    mul64 x y = pack64 (nx ^^ ny) (roundUnits (ux * uy) unitsPerOne) := by
  simp only [mul64, hx, hy]

theorem div64_isRounded {x y : DWord} {nx ny : Bool} {ux uy : Nat}
    (hx : Binary64.ofBits x = .finite nx ux) (hy : Binary64.ofBits y = .finite ny uy)
    (hne : uy ≠ 0) : IsRounded (div64 x y) (nx ^^ ny) (ux * unitsPerOne) uy := by
  rw [div64_of_finite hx hy hne]
  exact isRounded_pack64 _ _ (Nat.pos_of_ne_zero hne)

theorem mul64_isRounded {x y : DWord} {nx ny : Bool} {ux uy : Nat}
    (hx : Binary64.ofBits x = .finite nx ux) (hy : Binary64.ofBits y = .finite ny uy) :
    IsRounded (mul64 x y) (nx ^^ ny) (ux * uy) unitsPerOne := by
  rw [mul64_of_finite hx hy]
  exact isRounded_pack64 _ _ unitsPerOne_pos

/-- Settles O55: each operation packs one rounding of the exact result. -/
theorem arithmeticRoundsTheExactResult : Obligations.ArithmeticRoundsTheExactResult := by
  unfold Obligations.ArithmeticRoundsTheExactResult
  exact ⟨fun _ => isRounded_pack64 _ _ Nat.one_pos,
    fun _ _ _ _ _ _ hx hy => ⟨div64_isRounded hx hy, mul64_isRounded hx hy⟩⟩

theorem div64_of_infinite {x y : DWord} {nx ny : Bool} {ux : Nat}
    (hx : Binary64.ofBits x = .finite nx ux) (hy : Binary64.ofBits y = .infinite ny) :
    HasSignMagnitude (div64 x y) (nx ^^ ny) 0 := by
  simp only [div64, hx, hy]
  exact pack64_of_le _ (Nat.zero_le _)

/-- Settles O58: each clause is a branch of `div64` or `mul64`, which packs the sign and magnitude.
-/
theorem infinitiesAndZerosKeepTheSignOfTheProduct :
    Obligations.InfinitiesAndZerosKeepTheSignOfTheProduct := by
  unfold Obligations.InfinitiesAndZerosKeepTheSignOfTheProduct
  intro x y nx ny ux uy
  have hinf := pack64_of_le (nx ^^ ny) (Nat.le_refl infMagnitude)
  refine ⟨fun hx hy => ⟨div64_of_infinite hx hy, fun hne => ?finiteTimesInf⟩,
    fun hx hy => ⟨?infByFinite, fun hne => ?infTimesFinite⟩, fun hx hy hne => ?byZero,
    fun hx hy => ?infTimesInf⟩
  case finiteTimesInf => simpa only [mul64, hx, hy, if_neg hne] using hinf
  case infByFinite => simpa only [div64, hx, hy] using hinf
  case infTimesFinite => simpa only [mul64, hx, hy, if_neg hne] using hinf
  case byZero => simpa only [div64, hx, hy, if_true, if_neg hne] using hinf
  case infTimesInf => simpa only [mul64, hx, hy] using hinf

end Sys2Proof.Machine
end

section
/-! PROOF. What a pattern stands for (93_implementation_defined.md G4; 45_field_extractor.md R227):
its magnitude bits decide, and they are its exponent and fraction fields. -/

namespace Sys2Proof.Machine

theorem unitsOfMagnitude_zero : unitsOfMagnitude 0 = 0 := rfl

theorem unitsOfMagnitude_eq_zero_iff {m : Nat} : unitsOfMagnitude m = 0 ↔ m = 0 :=
  unitsOfMagnitude_strictMono.injective.eq_iff' unitsOfMagnitude_zero

/-- Bits 62..0 of a pattern (G4). -/
def magnitudeOf (v : DWord) : Nat := v.toNat % 2 ^ 63

theorem hasSignMagnitude_self (v : DWord) :
    HasSignMagnitude v (v.getLsbD 63) (magnitudeOf v) := ⟨rfl, rfl⟩

theorem ofBits_of_gt {v : DWord} (h : infMagnitude < magnitudeOf v) :
    Binary64.ofBits v = .nan := by
  have hne := Nat.ne_of_gt h
  rw [magnitudeOf] at h hne
  rw [Binary64.ofBits, if_neg (Nat.lt_asymm h), if_neg hne]

/-- A finite pattern has a finite magnitude, and its units are that magnitude's. -/
theorem ofBits_eq_finite_iff {v : DWord} {neg : Bool} {units : Nat} :
    Binary64.ofBits v = .finite neg units ↔
      magnitudeOf v < infMagnitude ∧ v.getLsbD 63 = neg ∧
        unitsOfMagnitude (magnitudeOf v) = units := by
  rcases Nat.lt_trichotomy (magnitudeOf v) infMagnitude with h | h | h
  · rw [ofBits_of_lt (hasSignMagnitude_self v) h]
    simp [h]
  · rw [ofBits_of_eq ⟨rfl, h⟩]
    simp [h]
  · rw [ofBits_of_gt h]
    simp [Nat.not_lt.2 (Nat.le_of_lt h)]

/-- A pattern is a number exactly when its magnitude is at most infinity's. -/
theorem ofBits_ne_nan_iff {v : DWord} :
    Binary64.ofBits v ≠ .nan ↔ magnitudeOf v ≤ infMagnitude := by
  rcases Nat.lt_trichotomy (magnitudeOf v) infMagnitude with h | h | h
  · rw [ofBits_of_lt (hasSignMagnitude_self v) h]
    simp [Nat.le_of_lt h]
  · rw [ofBits_of_eq ⟨rfl, h⟩]
    simp [h]
  · rw [ofBits_of_gt h]
    simp [h]

/-- The magnitude bits are the exponent field above the fraction field (G4). -/
theorem magnitude_eq_fields (v : DWord) :
    magnitudeOf v =
      (v.extractLsb' 52 11).toNat * 2 ^ 52 + (v.extractLsb' 0 52).toNat := by
  rw [magnitudeOf, BitVec.extractLsb'_toNat, BitVec.extractLsb'_toNat, Nat.shiftRight_eq_div_pow,
    Nat.shiftRight_zero]
  omega

theorem magnitude_eq_zero_iff {v : DWord} :
    magnitudeOf v = 0 ↔ v.extractLsb' 0 63 = 0#63 := by
  rw [← BitVec.toNat_inj, BitVec.extractLsb'_toNat, Nat.shiftRight_zero]
  rfl

/-- A finite pattern has an exponent field below 0x7FF. -/
theorem magnitude_lt_iff {v : DWord} :
    magnitudeOf v < infMagnitude ↔ v.extractLsb' 52 11 ≠ 0x7FF#11 := by
  have hfields := magnitude_eq_fields v
  have hexponent := (v.extractLsb' 52 11).isLt
  have hfraction := (v.extractLsb' 0 52).isLt
  rw [ne_eq, ← BitVec.toNat_inj, show (0x7FF#11).toNat = 0x7FF from rfl, infMagnitude]
  omega

theorem factorAdmitted_iff {v : DWord} :
    factorAdmitted v = true ↔ ∃ neg units, Binary64.ofBits v = .finite neg units ∧ units ≠ 0 := by
  have hfields : factorAdmitted v = true ↔
      magnitudeOf v < infMagnitude ∧ magnitudeOf v ≠ 0 := by
    rw [magnitude_lt_iff, ne_eq (magnitudeOf v), magnitude_eq_zero_iff]
    simp only [factorAdmitted, Bool.and_eq_true, bne_iff_ne, ne_eq]
  rw [hfields]
  constructor
  case mp =>
    rintro ⟨hfinite, hne⟩
    exact ⟨_, _, ofBits_eq_finite_iff.2 ⟨hfinite, rfl, rfl⟩, mt unitsOfMagnitude_eq_zero_iff.1 hne⟩
  case mpr =>
    rintro ⟨neg, units, hv, hne⟩
    obtain ⟨hfinite, _, rfl⟩ := ofBits_eq_finite_iff.1 hv
    exact ⟨hfinite, mt unitsOfMagnitude_eq_zero_iff.2 hne⟩

/-- Settles O56: the fields give the magnitude, and the magnitude the value. -/
theorem patternsAreReadByTheirFields : Obligations.PatternsAreReadByTheirFields := by
  unfold Obligations.PatternsAreReadByTheirFields
  intro v sign exponent fraction
  have hfields : magnitudeOf v = exponent * 2 ^ 52 + fraction := magnitude_eq_fields v
  have hfraction : fraction < 2 ^ 52 := (v.extractLsb' 0 52).isLt
  refine ⟨fun he => ?subnormal, fun hpos hmax => ?normal, fun he hf => ?infinite,
    fun he hf => ?nan, factorAdmitted_iff⟩
  case subnormal =>
    refine ofBits_eq_finite_iff.2 ⟨by rw [infMagnitude]; omega, rfl, ?_⟩
    rw [hfields, he, unitsOfMagnitude_scaled (by omega) (.inl rfl), Nat.pow_zero, Nat.mul_one]
  case normal =>
    refine ofBits_eq_finite_iff.2 ⟨by rw [infMagnitude]; omega, rfl, ?_⟩
    have hsplit : exponent * 2 ^ 52 + fraction =
        (exponent - 1) * 2 ^ 52 + (2 ^ 52 + fraction) := by omega
    rw [hfields, hsplit, unitsOfMagnitude_scaled (by omega) (.inr (by omega))]
  case infinite =>
    have hinf : magnitudeOf v = infMagnitude := by
      rw [hfields, infMagnitude]
      omega
    exact ofBits_of_eq ⟨rfl, hinf⟩
  case nan => exact ofBits_of_gt (by rw [hfields, infMagnitude]; omega)

end Sys2Proof.Machine
end

section
/-! PROOF. The comparison (00_scope.md R14): units rise with the magnitude bits, so the order of
signed units is the order of signed magnitude bits, and the infinities stand at its ends. -/

namespace Sys2Proof.Machine

/-- Signed units are ordered as the signed magnitudes are, since units rise with the magnitude. -/
theorem signedUnits_lt_iff (a b : Bool) (m n : Nat) :
    signedUnits a (unitsOfMagnitude m) < signedUnits b (unitsOfMagnitude n) ↔
      signedUnits a m < signedUnits b n := by
  have hlt : unitsOfMagnitude m < unitsOfMagnitude n ↔ m < n :=
    unitsOfMagnitude_strictMono.lt_iff_lt
  have hgt : unitsOfMagnitude n < unitsOfMagnitude m ↔ n < m :=
    unitsOfMagnitude_strictMono.lt_iff_lt
  have hm : unitsOfMagnitude m = 0 ↔ m = 0 := unitsOfMagnitude_eq_zero_iff
  have hn : unitsOfMagnitude n = 0 ↔ n = 0 := unitsOfMagnitude_eq_zero_iff
  cases a <;> cases b <;> (simp only [signedUnits, if_true, Bool.false_eq_true, if_false]; omega)

/-- A number that is finite or an infinity, with its magnitude. -/
theorem ofBits_cases {v : DWord} (h : Binary64.ofBits v ≠ .nan) :
    (magnitudeOf v < infMagnitude ∧ Binary64.ofBits v =
      .finite (v.getLsbD 63) (unitsOfMagnitude (magnitudeOf v))) ∨
    (magnitudeOf v = infMagnitude ∧ Binary64.ofBits v = .infinite (v.getLsbD 63)) := by
  rcases Nat.lt_or_eq_of_le (ofBits_ne_nan_iff.1 h) with hlt | heq
  · exact .inl ⟨hlt, ofBits_of_lt (hasSignMagnitude_self v) hlt⟩
  · exact .inr ⟨heq, ofBits_of_eq ⟨rfl, heq⟩⟩

/-- Above every finite magnitude only a positive infinity stands. -/
theorem signedUnits_lt_infinite {m : Nat} (h : m < infMagnitude) (a b : Bool) :
    signedUnits a m < signedUnits b infMagnitude ↔ b = false := by
  cases a <;> cases b <;> (simp only [signedUnits, if_true, Bool.false_eq_true, if_false]; grind)

/-- Below every finite magnitude only a negative infinity stands. -/
theorem signedUnits_infinite_lt {m : Nat} (h : m < infMagnitude) (a b : Bool) :
    signedUnits a infMagnitude < signedUnits b m ↔ a = true := by
  cases a <;> cases b <;> (simp only [signedUnits, if_true, Bool.false_eq_true, if_false]; grind)

theorem signedUnits_infinite_lt_infinite (a b : Bool) :
    signedUnits a infMagnitude < signedUnits b infMagnitude ↔ a = true ∧ b = false := by
  have hpos : 0 < infMagnitude := by decide
  cases a <;> cases b <;> (simp only [signedUnits, if_true, Bool.false_eq_true, if_false]; grind)

theorem Binary64.finite_lt_infinite (a b : Bool) (u : Nat) :
    (Binary64.finite a u).lt (.infinite b) = !b := rfl

theorem Binary64.infinite_lt_finite (a b : Bool) (u : Nat) :
    (Binary64.infinite a).lt (.finite b u) = a := by
  cases a <;> rfl

theorem Binary64.infinite_lt_infinite (a b : Bool) :
    (Binary64.infinite a).lt (.infinite b) = (a && !b) := by
  cases a <;> cases b <;> rfl

/-- On numbers, the infinities among them, the comparison is that of the signed magnitude bits. -/
theorem lt64_iff_signedMagnitude {x y : DWord} (hx : Binary64.ofBits x ≠ .nan)
    (hy : Binary64.ofBits y ≠ .nan) :
    lt64 x y = true ↔
      signedUnits (x.getLsbD 63) (magnitudeOf x) < signedUnits (y.getLsbD 63) (magnitudeOf y) := by
  rcases ofBits_cases hx with ⟨hxlt, hx⟩ | ⟨hxeq, hx⟩ <;>
    rcases ofBits_cases hy with ⟨hylt, hy⟩ | ⟨hyeq, hy⟩ <;>
    rw [lt64, hx, hy]
  · rw [← signedUnits_lt_iff]
    simp only [Binary64.lt, decide_eq_true_eq]
  · rw [hyeq, signedUnits_lt_infinite hxlt, Binary64.finite_lt_infinite, Bool.not_eq_true']
  · rw [hxeq, signedUnits_infinite_lt hylt, Binary64.infinite_lt_finite]
  · rw [hxeq, hyeq, signedUnits_infinite_lt_infinite, Binary64.infinite_lt_infinite,
      Bool.and_eq_true, Bool.not_eq_true']

theorem lt64_of_finite {x y : DWord} {nx ny : Bool} {ux uy : Nat}
    (hx : Binary64.ofBits x = .finite nx ux) (hy : Binary64.ofBits y = .finite ny uy) :
    lt64 x y = true ↔ signedUnits nx ux < signedUnits ny uy := by
  simp only [lt64, hx, hy, Binary64.lt, decide_eq_true_eq]

theorem lt64_of_nan {x y : DWord} (h : Binary64.ofBits x = .nan ∨ Binary64.ofBits y = .nan) :
    lt64 x y = false := by
  rcases h with h | h
  · rw [lt64, h]
    rfl
  · rw [lt64, h]
    cases Binary64.ofBits x with
    | nan => rfl
    | finite => rfl
    | infinite neg => cases neg <;> rfl

/-- Settles O57: `lt64_of_finite`, `lt64_iff_signedMagnitude` and `lt64_of_nan`. -/
theorem comparisonOrdersTheExactValues : Obligations.ComparisonOrdersTheExactValues := by
  unfold Obligations.ComparisonOrdersTheExactValues
  exact fun _ _ => ⟨fun _ _ _ _ => lt64_of_finite, lt64_iff_signedMagnitude, lt64_of_nan⟩

end Sys2Proof.Machine
end

section
/-! PROOF. The scale rule for every finite nonzero factor (45_field_extractor.md R228, R232): when
the reciprocal of the factor overflows, that it is nonzero when it does not, and what is left of it.
-/

namespace Sys2Proof.Machine

/-- A magnitude is finite exactly below the overflow bound. -/
theorem roundUnits_eq_inf_iff (num : Nat) {den : Nat} (hden : 0 < den) :
    roundUnits num den = infMagnitude ↔ den * ((2 ^ 54 - 1) * 2 ^ 2044) ≤ num :=
  (roundUnits_nearestEven num hden).overflow

/-- A quotient of at least one unit does not round to zero. -/
theorem roundUnits_pos {num den : Nat} (hden : 0 < den) (h : den ≤ num) :
    0 < roundUnits num den := by
  obtain ⟨m, hm, hround⟩ := roundUnits_eq num hden
  have hpos : 0 < m := by
    by_contra hzero
    obtain rfl : m = 0 := by omega
    have hlt : num < den * 1 := hm.lt
    omega
  have hinf : 0 < infMagnitude := by decide
  omega

theorem unitsPerOne_mul_self : unitsPerOne * unitsPerOne = 2 ^ 2148 := by decide +kernel

/-- The reciprocal of a factor of at most 2^-1024 in magnitude overflows (R232). -/
theorem reciprocal_overflow_iff {uf : Nat} (hne : uf ≠ 0) :
    roundUnits (unitsPerOne * unitsPerOne) uf = infMagnitude ↔ uf ≤ 2 ^ 50 := by
  rw [roundUnits_eq_inf_iff _ (Nat.pos_of_ne_zero hne), unitsPerOne_mul_self]
  have hatBound : 2 ^ 50 * ((2 ^ 54 - 1) * 2 ^ 2044) ≤ 2 ^ 2148 := by decide +kernel
  have hpastBound : 2 ^ 2148 < (2 ^ 50 + 1) * ((2 ^ 54 - 1) * 2 ^ 2044) := by decide +kernel
  constructor
  case mp =>
    intro h
    by_contra hgt
    exact Nat.not_le.2 hpastBound
      (Nat.le_trans (Nat.mul_le_mul_right _ (Nat.succ_le_of_lt (Nat.lt_of_not_le hgt))) h)
  case mpr => exact fun h => Nat.le_trans (Nat.mul_le_mul_right _ h) hatBound

theorem unitsOfMagnitude_infMagnitude_le :
    unitsOfMagnitude infMagnitude ≤ unitsPerOne * unitsPerOne := by
  decide +kernel

/-- The reciprocal of a finite factor is at least one unit. -/
theorem reciprocal_pos {factor : DWord} {nf : Bool} {uf : Nat}
    (hfactor : Binary64.ofBits factor = .finite nf uf) (hne : uf ≠ 0) :
    0 < roundUnits (unitsPerOne * unitsPerOne) uf := by
  obtain ⟨hfinite, _, rfl⟩ := ofBits_eq_finite_iff.1 hfactor
  exact roundUnits_pos (Nat.pos_of_ne_zero hne)
    (Nat.le_trans (Nat.le_of_lt (unitsOfMagnitude_strictMono hfinite))
      unitsOfMagnitude_infMagnitude_le)

variable {x factor : DWord} {nx nf : Bool} {ux uf : Nat}

/-- The factors the rule divides by: every negative one, and those below 1 (R228). -/
theorem lt64_factor_one (hfactor : Binary64.ofBits factor = .finite nf uf)
    (h : nf = true ∨ uf < unitsPerOne) : lt64 factor one64 = true := by
  have hpos := unitsPerOne_pos
  rw [lt64_of_finite hfactor ofBits_one64]
  cases nf with
  | true =>
    show -(uf : Int) < unitsPerOne
    omega
  | false =>
    have hlt : uf < unitsPerOne := h.resolve_left Bool.false_ne_true
    exact Int.ofNat_lt.2 hlt

/-- The factors it multiplies by (R228). -/
theorem lt64_one_factor (hfactor : Binary64.ofBits factor = .finite false uf)
    (h : unitsPerOne < uf) : lt64 one64 factor = true :=
  (lt64_of_finite ofBits_one64 hfactor).2 (Int.ofNat_lt.2 h)

theorem div64_one_factor (hfactor : Binary64.ofBits factor = .finite nf uf) (hne : uf ≠ 0) :
    div64 one64 factor = pack64 nf (roundUnits (unitsPerOne * unitsPerOne) uf) := by
  rw [div64_of_finite ofBits_one64 hfactor hne, Bool.false_xor]

/-- A factor of at most 2^-1024 in magnitude (R232). -/
theorem scale_of_reciprocal_overflow (hx : Binary64.ofBits x = .finite nx ux)
    (hfactor : Binary64.ofBits factor = .finite nf uf) (hne : uf ≠ 0)
    (hdivides : nf = true ∨ uf < unitsPerOne) (hsmall : uf ≤ 2 ^ 50) :
    HasSignMagnitude (div64 one64 factor) nf infMagnitude ∧
      HasSignMagnitude (scale x factor) (nx ^^ nf) 0 := by
  have hreciprocal : HasSignMagnitude (div64 one64 factor) nf infMagnitude := by
    rw [div64_one_factor hfactor hne, (reciprocal_overflow_iff hne).2 hsmall]
    exact pack64_of_le nf (Nat.le_refl _)
  refine ⟨hreciprocal, ?_⟩
  rw [scale_of_lt_one x (lt64_factor_one hfactor hdivides)]
  exact div64_of_infinite hx (ofBits_of_eq hreciprocal)

/-- A larger factor the rule divides by: the reciprocal is finite and nonzero, and its rounding is
the first of two. -/
theorem scale_of_reciprocal_finite (hx : Binary64.ofBits x = .finite nx ux)
    (hfactor : Binary64.ofBits factor = .finite nf uf) (hne : uf ≠ 0)
    (hdivides : nf = true ∨ uf < unitsPerOne) (hlarge : 2 ^ 50 < uf) :
    ∃ ur, 0 < ur ∧ Binary64.ofBits (div64 one64 factor) = .finite nf ur ∧
      IsRounded (div64 one64 factor) nf (unitsPerOne * unitsPerOne) uf ∧
      IsRounded (scale x factor) (nx ^^ nf) (ux * unitsPerOne) ur := by
  have hfinite : roundUnits (unitsPerOne * unitsPerOne) uf < infMagnitude :=
    Nat.lt_of_le_of_ne (roundUnits_le _ _)
      (mt (reciprocal_overflow_iff hne).1 (Nat.not_le.2 hlarge))
  have hunits : unitsOfMagnitude (roundUnits (unitsPerOne * unitsPerOne) uf) ≠ 0 :=
    mt unitsOfMagnitude_eq_zero_iff.1 (Nat.ne_of_gt (reciprocal_pos hfactor hne))
  have hreciprocal : Binary64.ofBits (div64 one64 factor) =
      .finite nf (unitsOfMagnitude (roundUnits (unitsPerOne * unitsPerOne) uf)) := by
    rw [div64_one_factor hfactor hne]
    exact ofBits_of_lt (pack64_roundUnits _ _ _) hfinite
  refine ⟨_, Nat.pos_of_ne_zero hunits, hreciprocal, ?_, ?_⟩
  · rw [div64_one_factor hfactor hne]
    exact isRounded_pack64 nf _ (Nat.pos_of_ne_zero hne)
  · rw [scale_of_lt_one x (lt64_factor_one hfactor hdivides)]
    exact div64_isRounded hx hreciprocal hunits

theorem scale_of_one_lt_factor (hx : Binary64.ofBits x = .finite nx ux)
    (hfactor : Binary64.ofBits factor = .finite false uf) (hlarge : unitsPerOne < uf) :
    scale x factor = pack64 nx (roundUnits (ux * uf) unitsPerOne) := by
  rw [scale_of_one_lt x (lt64_one_factor hfactor hlarge), mul64_of_finite hx hfactor,
    Bool.xor_false]

theorem scale_of_factor_one (x : DWord) (hfactor : Binary64.ofBits factor = .finite false uf)
    (h : uf = unitsPerOne) : scale x factor = x := by
  have hirrefl : ¬ signedUnits false uf < signedUnits false unitsPerOne := by
    rw [h]
    exact Int.lt_irrefl _
  have hirrefl' : ¬ signedUnits false unitsPerOne < signedUnits false uf := by
    rw [h]
    exact Int.lt_irrefl _
  exact scale_of_not_lt x
    (Bool.eq_false_iff.2 (mt (lt64_of_finite hfactor ofBits_one64).1 hirrefl))
    (Bool.eq_false_iff.2 (mt (lt64_of_finite ofBits_one64 hfactor).1 hirrefl'))

end Sys2Proof.Machine
end

section
/-! PROOF. The outcomes of the scale rule, and that no temperature is a NaN (45_field_extractor.md
R226 to R232). -/

namespace Sys2Proof.Machine

/-- Settles O59: the three ranges of the factor are the three branches of the rule. -/
theorem scaleOutcomeForEveryFactor : Obligations.ScaleOutcomeForEveryFactor := by
  unfold Obligations.ScaleOutcomeForEveryFactor
  intro x factor nx nf ux uf hx hfactor hne
  refine ⟨fun hdivides => ⟨scale_of_reciprocal_overflow hx hfactor hne hdivides,
    scale_of_reciprocal_finite hx hfactor hne hdivides⟩, ?multiplies, ?one⟩
  case multiplies =>
    rintro rfl hlarge
    rw [scale_of_one_lt_factor hx hfactor hlarge, Bool.xor_false]
    refine ⟨isRounded_pack64 nx _ unitsPerOne_pos, fun hoverflow => ?_⟩
    rw [(roundUnits_eq_inf_iff _ unitsPerOne_pos).2 hoverflow]
    exact pack64_of_le nx (Nat.le_refl _)
  case one =>
    rintro rfl h
    exact scale_of_factor_one x hfactor h

/-- A pattern with a sign and a magnitude up to infinity's is a number. -/
theorem ofBits_ne_nan_of_le {v : DWord} {neg : Bool} {m : Nat} (h : HasSignMagnitude v neg m)
    (hm : m ≤ infMagnitude) : Binary64.ofBits v ≠ .nan :=
  ofBits_ne_nan_iff.2 (Nat.le_trans (Nat.le_of_eq h.2) hm)

/-- What is rounded is a number. -/
theorem IsRounded.ne_nan {v : DWord} {neg : Bool} {num den : Nat} (h : IsRounded v neg num den) :
    Binary64.ofBits v ≠ .nan := by
  obtain ⟨q, hq, hnearest⟩ := h
  exact ofBits_ne_nan_of_le hq hnearest.le

/-- A finite value scaled by an admitted factor is a number (R232). -/
theorem scale_ne_nan {x factor : DWord} {nx : Bool} {ux : Nat}
    (hx : Binary64.ofBits x = .finite nx ux) (hadmitted : factorAdmitted factor = true) :
    Binary64.ofBits (scale x factor) ≠ .nan := by
  obtain ⟨nf, uf, hfactor, hne⟩ := factorAdmitted_iff.1 hadmitted
  obtain ⟨hdivides, hmultiplies, hone⟩ :=
    scaleOutcomeForEveryFactor x factor nx nf ux uf hx hfactor hne
  by_cases hless : nf = true ∨ uf < unitsPerOne
  · obtain ⟨hoverflow, hfinite⟩ := hdivides hless
    rcases Nat.lt_or_ge (2 ^ 50) uf with hlarge | hsmall
    · obtain ⟨ur, _, _, _, hrounded⟩ := hfinite hlarge
      exact hrounded.ne_nan
    · exact ofBits_ne_nan_of_le (hoverflow hsmall).2 (Nat.zero_le _)
  · obtain ⟨hpositive, hge⟩ := not_or.1 hless
    have hnf : nf = false := Bool.eq_false_iff.2 hpositive
    rcases Nat.lt_or_eq_of_le (Nat.le_of_not_lt hge) with hlarge | heq
    · exact (hmultiplies hnf hlarge).1.ne_nan
    · rw [hone hnf heq.symm, hx]
      exact nofun

/-- An integer of 64 bits converts to a finite value. -/
theorem floatOfInt_finite {z : Int} (hz : z.natAbs ≤ 2 ^ 63) :
    ∃ units, Binary64.ofBits (floatOfInt z) = .finite (decide (z < 0)) units := by
  have hbound : 2 ^ 63 * unitsPerOne < 1 * ((2 ^ 54 - 1) * 2 ^ 2044) := by decide +kernel
  have hnum : z.natAbs * unitsPerOne ≤ 2 ^ 63 * unitsPerOne := Nat.mul_le_mul_right _ hz
  have hfinite : roundUnits (z.natAbs * unitsPerOne) 1 < infMagnitude :=
    Nat.lt_of_le_of_ne (roundUnits_le _ _) (mt (roundUnits_eq_inf_iff _ Nat.one_pos).1
      (Nat.not_le.2 (Nat.lt_of_le_of_lt hnum hbound)))
  exact ⟨_, ofBits_of_lt (pack64_roundUnits _ _ _) hfinite⟩

/-- Settles O37: a field converts to a finite value, and scaling that gives a number. -/
theorem temperatureIsNeverNaN : Obligations.TemperatureIsNeverNaN := by
  unfold Obligations.TemperatureIsNeverNaN
  intro z factor hz hadmitted
  obtain ⟨units, hfinite⟩ := floatOfInt_finite hz
  exact scale_ne_nan hfinite hadmitted

/-- The two's-complement reading of a field is the field mod 2^bits (R226). -/
theorem signedValue_emod {raw size : Nat} (hraw : raw < 2 ^ (8 * size)) :
    signedValue raw size % 2 ^ (8 * size) = raw := by
  have hcast : ((raw : Int)) % 2 ^ (8 * size) = raw :=
    Int.emod_eq_of_lt (Int.natCast_nonneg raw) (by exact_mod_cast hraw)
  rcases Nat.lt_or_ge raw (2 ^ (8 * size - 1)) with h | h
  · rw [signedValue_of_lt h, hcast]
  · rw [signedValue_of_le h, Int.sub_emod_right, hcast]

/-- Settles O32: an admitted read in range completes, and `signedReinterpretation` gives the range
of the integer it scales. -/
theorem getTemperatureScalesTheSignedField : Obligations.GetTemperatureScalesTheSignedField := by
  unfold Obligations.GetTemperatureScalesTheSignedField
  intro s p offset size factor bytes ⟨hidle, hp, _⟩ hrange hpos hsize hadmitted hbytes
  have hraw : leNat bytes < 2 ^ (8 * size.toNat) := by
    rw [← Memory.length_readRange hbytes, Nat.pow_mul]
    exact leNat_lt bytes
  obtain ⟨_, _, hlower, hupper, _⟩ := signedReinterpretation _ _ hpos hsize hraw
  refine ⟨signedValue (leNat bytes) size.toNat, ?answer, hlower, by omega, signedValue_emod hraw⟩
  case answer =>
    have hoperands : (signedSizeAdmitted size && factorAdmitted factor) = true := by
      rw [hadmitted, Bool.and_true, signedSizeAdmitted, decide_eq_true hpos, decide_eq_true hsize]
      rfl
    rw [exec_getTemperature, hoperands]
    exact fieldRead_completes hidle hp hrange hbytes

end Sys2Proof.Machine
end
